-- ==== Sys2Proof/Word.lean ====
section
/-! DEFINITION. The word types of the puce CORE and their plainest arithmetic (spec/00_scope.md R6, R9). -/

namespace Sys2Proof

/-- A memory byte, a general register or a timer: `XLEN` = 8 bits (R6). -/
abbrev Byte := BitVec 8

/-- `I`, `PC`, a stack entry or an instruction word: `ILEN` = 16 bits (R6). -/
abbrev Word := BitVec 16

/-- The 12-bit immediate `nnn` of an instruction word (R81). -/
abbrev Addr12 := BitVec 12

/-- A 4-bit field of an instruction word, or a key number (R29, R81). -/
abbrev Nibble := BitVec 4

/-- The number of a general register, 0..15 (R21). -/
abbrev RegIdx := Fin 16

/-- The flag register VF is general register 15 (R22). -/
def vf : RegIdx := 15

end Sys2Proof
end

