-- ==== Sys2Proof/Config.lean ====
section
/-! DEFINITION. The fixed sizes of the puce CORE (spec/00_scope.md R6), its four configuration parameters with their
defaults (R7), and the one free value of the model (the random byte of R8, R153). -/

namespace Sys2Proof

/-- `MEM_SIZE`: bytes of memory, addresses 0..4095 (R6, R50). -/
def memSize : Nat := 4096

/-- `PROG_BASE`: the first byte of the loaded program and the reset value of PC (R6). -/
def progBase : Nat := 0x200

/-- `ROM_MAX`: the largest loadable program in bytes, 4096 - 0x200 (R6, R205). -/
def romMax : Nat := 3584

/-- `STACK_DEPTH`: the return addresses the call stack holds (R6, R26). -/
def stackDepth : Nat := 16

/-- `FB_W`: columns of the display buffer (R6, R31). -/
def fbWidth : Nat := 64

/-- `FB_H`: rows of the display buffer (R6, R31). -/
def fbHeight : Nat := 32

/-- `GLYPH_STRIDE`: bytes per glyph (R6, R57). -/
def glyphStride : Nat := 5

/-- `SHIFT_SRC`: which register the shift instructions read (R7, R150, R152). -/
inductive ShiftSrc where
  | vx
  | vy
  deriving DecidableEq, Repr

/-- `SPRITE_EDGE`: what DRW does with a cell outside the 64 by 32 buffer (R7, R172). -/
inductive SpriteEdge where
  | wrap
  | clip
  deriving DecidableEq, Repr

/-- `KEYWAIT`: whether word FX0A is an InvalidOpcode or the block-until-key instruction (R7, R185). -/
inductive KeyWait where
  | fault
  | wait
  deriving DecidableEq, Repr

/-- `GLYPHS`: the 80 bytes at 0x000..0x04F after reset (R7, R57). -/
abbrev Glyphs := Vector Byte 80

/-- The configuration record of R7. It is no state of the hardware and no step changes it (R35); State carries it so that
every statement about all states covers every configuration (assumption 1). -/
structure Config where
  shiftSrc   : ShiftSrc
  spriteEdge : SpriteEdge
  keyWait    : KeyWait
  glyphs     : Glyphs
  deriving DecidableEq, Repr

/-- The default glyph table, one row of five bytes per hexadecimal digit (R57; the bytes are the spec's decision D2). -/
def Config.conventionalGlyphs : Glyphs := #v[
  0xF0, 0x90, 0x90, 0x90, 0xF0,
  0x20, 0x60, 0x20, 0x20, 0x70,
  0xF0, 0x10, 0xF0, 0x80, 0xF0,
  0xF0, 0x10, 0xF0, 0x10, 0xF0,
  0x90, 0x90, 0xF0, 0x10, 0x10,
  0xF0, 0x80, 0xF0, 0x10, 0xF0,
  0xF0, 0x80, 0xF0, 0x90, 0xF0,
  0xF0, 0x10, 0x20, 0x40, 0x40,
  0xF0, 0x90, 0xF0, 0x90, 0xF0,
  0xF0, 0x90, 0xF0, 0x10, 0xF0,
  0xF0, 0x90, 0xF0, 0x90, 0x90,
  0xE0, 0x90, 0xE0, 0x90, 0xE0,
  0xF0, 0x80, 0x80, 0x80, 0xF0,
  0xE0, 0x90, 0x90, 0x90, 0xE0,
  0xF0, 0x80, 0xF0, 0x80, 0xF0,
  0xF0, 0x80, 0xF0, 0x80, 0x80]

/-- The parameters at their defaults (R7). -/
def Config.defaults : Config where
  shiftSrc   := .vx
  spriteEdge := .wrap
  keyWait    := .fault
  glyphs     := Config.conventionalGlyphs

/-- FREE VALUE (assumption 2). The random byte of a Step event for which the driver's schedule names none: the `n`-th such
draw. It has no body, so nothing can be proved about its value (R8: "a model treats it as a free draw under no law"). -/
opaque Config.freeRandom : Nat → Byte

end Sys2Proof
end

