-- ==== Sys2Proof/Syntax.lean ====
section
/-! DEFINITION. The instructions of the puce CORE, one constructor per row of spec/opcode_table.json, in its order
(spec/30_encoding.md R86), and the named grounds on which a word is illegal (R87). -/

namespace Sys2Proof

/-- The 34 instructions (R86). A register field is a register number 0..15, `nn` and `nnn` are the immediates' own widths
and `n` is the sprite height 0..15, so every value of every field is encodable (R83). -/
inductive Instr where
  | cls
  | ret
  | jp (nnn : Addr12)
  | call (nnn : Addr12)
  | seImm (x : RegIdx) (nn : Byte)
  | sneImm (x : RegIdx) (nn : Byte)
  | seReg (x y : RegIdx)
  | ldImm (x : RegIdx) (nn : Byte)
  | addImm (x : RegIdx) (nn : Byte)
  | ldReg (x y : RegIdx)
  | orReg (x y : RegIdx)
  | andReg (x y : RegIdx)
  | xorReg (x y : RegIdx)
  | addReg (x y : RegIdx)
  | subReg (x y : RegIdx)
  | shr (x y : RegIdx)
  | subn (x y : RegIdx)
  | shl (x y : RegIdx)
  | sneReg (x y : RegIdx)
  | ldI (nnn : Addr12)
  | jpV0 (nnn : Addr12)
  | rnd (x : RegIdx) (nn : Byte)
  | drw (x y : RegIdx) (n : Fin 16)
  | skp (x : RegIdx)
  | sknp (x : RegIdx)
  | ldVxDT (x : RegIdx)
  | ldVxK (x : RegIdx)
  | ldDTVx (x : RegIdx)
  | ldSTVx (x : RegIdx)
  | addI (x : RegIdx)
  | ldF (x : RegIdx)
  | ldB (x : RegIdx)
  | storeRegs (x : RegIdx)
  | loadRegs (x : RegIdx)
  deriving DecidableEq, Repr

/-- Why a word is illegal: the classes (a) to (g) of R87, and a byte sequence that ends before the word does. -/
inductive Illegal where
  /-- (a) class 0, any word but 0x00E0 and 0x00EE -/
  | class0
  /-- (b) class 5 with a low nibble other than 0 -/
  | class5LowNibble
  /-- (c) class 8 with an undefined sub-function -/
  | class8SubFunction
  /-- (d) class 9 with a low nibble other than 0 -/
  | class9LowNibble
  /-- (e) class E with an undefined sub-function -/
  | classESubFunction
  /-- (f) class F with an undefined sub-function -/
  | classFSubFunction
  /-- (g) FX0A while KEYWAIT = fault -/
  | keyWaitDisabled
  /-- fewer than the two bytes of a word -/
  | truncated
  deriving DecidableEq, Repr

end Sys2Proof
end

