-- ==== Sys2Proof/Decode.lean ====
section
/-! DEFINITION. The decoder (spec/30_encoding.md R81, R84), total on words and on bytes and refusing by name, and after it
the encoder, written from the patterns of R86. The word is big-endian in memory (spec/20_memory.md R55). -/

namespace Sys2Proof

/-- `op`, the opcode class: `w[15:12]` (R81). -/
def opField (w : Word) : Nibble := w.extractLsb' 12 4

/-- `x`, the second nibble: `w[11:8]` (R81). -/
def xField (w : Word) : Nibble := w.extractLsb' 8 4

/-- `y`, the third nibble: `w[7:4]` (R81). -/
def yField (w : Word) : Nibble := w.extractLsb' 4 4

/-- `n`, the low nibble: `w[3:0]` (R81). -/
def nField (w : Word) : Nibble := w.extractLsb' 0 4

/-- `nn`, the low byte: `w[7:0]` (R81). -/
def nnField (w : Word) : Byte := w.extractLsb' 0 8

/-- `nnn`, the low 12 bits: `w[11:0]` (R81). -/
def nnnField (w : Word) : Addr12 := w.extractLsb' 0 12

/-- A nibble that names a register selects among all sixteen (R83). -/
def regOf (f : Nibble) : RegIdx := ⟨f.toNat, f.isLt⟩

/-- Class 8, the register-register group: the sub-function is the low nibble (R84, R85). -/
def decodeClass8 (x y : RegIdx) (n : Nibble) : Except Illegal Instr :=
  match n.toNat with
  | 0x0 => .ok (.ldReg x y)
  | 0x1 => .ok (.orReg x y)
  | 0x2 => .ok (.andReg x y)
  | 0x3 => .ok (.xorReg x y)
  | 0x4 => .ok (.addReg x y)
  | 0x5 => .ok (.subReg x y)
  | 0x6 => .ok (.shr x y)
  | 0x7 => .ok (.subn x y)
  | 0xE => .ok (.shl x y)
  | _ => .error .class8SubFunction

/-- Class E, the key skips: the sub-function is the low byte (R84, R85). -/
def decodeClassE (x : RegIdx) (nn : Byte) : Except Illegal Instr :=
  if nn = 0x9E#8 then .ok (.skp x)
  else if nn = 0xA1#8 then .ok (.sknp x)
  else .error .classESubFunction

/-- Class F: the sub-function is the low byte; 0A is legal only with `KEYWAIT = wait` (R84, R85). -/
def decodeClassF (kw : KeyWait) (x : RegIdx) (nn : Byte) : Except Illegal Instr :=
  if nn = 0x07#8 then .ok (.ldVxDT x)
  else if nn = 0x0A#8 then (if kw = .wait then .ok (.ldVxK x) else .error .keyWaitDisabled)
  else if nn = 0x15#8 then .ok (.ldDTVx x)
  else if nn = 0x18#8 then .ok (.ldSTVx x)
  else if nn = 0x1E#8 then .ok (.addI x)
  else if nn = 0x29#8 then .ok (.ldF x)
  else if nn = 0x33#8 then .ok (.ldB x)
  else if nn = 0x55#8 then .ok (.storeRegs x)
  else if nn = 0x65#8 then .ok (.loadRegs x)
  else .error .classFSubFunction

/-- The decoder of R84: `op` first, then the sub-function bits the class defines. -/
def decode (kw : KeyWait) (w : Word) : Except Illegal Instr :=
  let x := regOf (xField w)
  let y := regOf (yField w)
  let n := nField w
  let nn := nnField w
  let nnn := nnnField w
  match (opField w).toNat with
  | 0x0 =>
    if w = 0x00E0#16 then .ok .cls
    else if w = 0x00EE#16 then .ok .ret
    else .error .class0
  | 0x1 => .ok (.jp nnn)
  | 0x2 => .ok (.call nnn)
  | 0x3 => .ok (.seImm x nn)
  | 0x4 => .ok (.sneImm x nn)
  | 0x5 => if n = 0x0#4 then .ok (.seReg x y) else .error .class5LowNibble
  | 0x6 => .ok (.ldImm x nn)
  | 0x7 => .ok (.addImm x nn)
  | 0x8 => decodeClass8 x y n
  | 0x9 => if n = 0x0#4 then .ok (.sneReg x y) else .error .class9LowNibble
  | 0xA => .ok (.ldI nnn)
  | 0xB => .ok (.jpV0 nnn)
  | 0xC => .ok (.rnd x nn)
  | 0xD => .ok (.drw x y (regOf n))
  | 0xE => decodeClassE x nn
  | _ => decodeClassF kw x nn

/-- The word held by two consecutive bytes, the lower address in bits 15..8 (R52, R55). -/
def wordOfBytes (hi lo : Byte) : Word := hi ++ lo

/-- The byte of a word at the lower address: bits 15..8 (R55). -/
def hiByte (w : Word) : Byte := w.extractLsb' 8 8

/-- The byte of a word at the higher address: bits 7..0 (R55). -/
def loByte (w : Word) : Byte := w.extractLsb' 0 8

/-- Decode the instruction at the head of a byte sequence and return the bytes after it: every instruction is two bytes
long (R80). -/
def decodeBytes (kw : KeyWait) : List Byte → Except Illegal (Instr × List Byte)
  | hi :: lo :: rest => (decode kw (wordOfBytes hi lo)).map (·, rest)
  | _ => .error .truncated

/-- Format A (R82): the class nibble and a 12-bit address. -/
def encodeA (op : Nibble) (nnn : Addr12) : Word := op ++ nnn

/-- Format I (R82): the class nibble, a register and an 8-bit constant. Format X is format I with a fixed low byte. -/
def encodeI (op : Nibble) (x : RegIdx) (nn : Byte) : Word := op ++ (BitVec.ofFin x : Nibble) ++ nn

/-- Format R and format D (R82): the class nibble, two registers and a low nibble. -/
def encodeR (op : Nibble) (x y : RegIdx) (n : Nibble) : Word :=
  op ++ (BitVec.ofFin x : Nibble) ++ (BitVec.ofFin y : Nibble) ++ n

/-- The word of an instruction: the pattern of its row of R86 with its fields filled in. -/
def encode : Instr → Word
  | .cls => 0x00E0#16
  | .ret => 0x00EE#16
  | .jp nnn => encodeA 0x1 nnn
  | .call nnn => encodeA 0x2 nnn
  | .seImm x nn => encodeI 0x3 x nn
  | .sneImm x nn => encodeI 0x4 x nn
  | .seReg x y => encodeR 0x5 x y 0x0
  | .ldImm x nn => encodeI 0x6 x nn
  | .addImm x nn => encodeI 0x7 x nn
  | .ldReg x y => encodeR 0x8 x y 0x0
  | .orReg x y => encodeR 0x8 x y 0x1
  | .andReg x y => encodeR 0x8 x y 0x2
  | .xorReg x y => encodeR 0x8 x y 0x3
  | .addReg x y => encodeR 0x8 x y 0x4
  | .subReg x y => encodeR 0x8 x y 0x5
  | .shr x y => encodeR 0x8 x y 0x6
  | .subn x y => encodeR 0x8 x y 0x7
  | .shl x y => encodeR 0x8 x y 0xE
  | .sneReg x y => encodeR 0x9 x y 0x0
  | .ldI nnn => encodeA 0xA nnn
  | .jpV0 nnn => encodeA 0xB nnn
  | .rnd x nn => encodeI 0xC x nn
  | .drw x y n => encodeR 0xD x y (BitVec.ofFin n)
  | .skp x => encodeI 0xE x 0x9E
  | .sknp x => encodeI 0xE x 0xA1
  | .ldVxDT x => encodeI 0xF x 0x07
  | .ldVxK x => encodeI 0xF x 0x0A
  | .ldDTVx x => encodeI 0xF x 0x15
  | .ldSTVx x => encodeI 0xF x 0x18
  | .addI x => encodeI 0xF x 0x1E
  | .ldF x => encodeI 0xF x 0x29
  | .ldB x => encodeI 0xF x 0x33
  | .storeRegs x => encodeI 0xF x 0x55
  | .loadRegs x => encodeI 0xF x 0x65

/-- The `mask` and `match` columns of R86 for an instruction's row: a word selects the row iff its masked bits equal the
match. -/
def tableRow : Instr → Word × Word
  | .cls => (0xFFFF, 0x00E0)
  | .ret => (0xFFFF, 0x00EE)
  | .jp _ => (0xF000, 0x1000)
  | .call _ => (0xF000, 0x2000)
  | .seImm _ _ => (0xF000, 0x3000)
  | .sneImm _ _ => (0xF000, 0x4000)
  | .seReg _ _ => (0xF00F, 0x5000)
  | .ldImm _ _ => (0xF000, 0x6000)
  | .addImm _ _ => (0xF000, 0x7000)
  | .ldReg _ _ => (0xF00F, 0x8000)
  | .orReg _ _ => (0xF00F, 0x8001)
  | .andReg _ _ => (0xF00F, 0x8002)
  | .xorReg _ _ => (0xF00F, 0x8003)
  | .addReg _ _ => (0xF00F, 0x8004)
  | .subReg _ _ => (0xF00F, 0x8005)
  | .shr _ _ => (0xF00F, 0x8006)
  | .subn _ _ => (0xF00F, 0x8007)
  | .shl _ _ => (0xF00F, 0x800E)
  | .sneReg _ _ => (0xF00F, 0x9000)
  | .ldI _ => (0xF000, 0xA000)
  | .jpV0 _ => (0xF000, 0xB000)
  | .rnd _ _ => (0xF000, 0xC000)
  | .drw _ _ _ => (0xF000, 0xD000)
  | .skp _ => (0xF0FF, 0xE09E)
  | .sknp _ => (0xF0FF, 0xE0A1)
  | .ldVxDT _ => (0xF0FF, 0xF007)
  | .ldVxK _ => (0xF0FF, 0xF00A)
  | .ldDTVx _ => (0xF0FF, 0xF015)
  | .ldSTVx _ => (0xF0FF, 0xF018)
  | .addI _ => (0xF0FF, 0xF01E)
  | .ldF _ => (0xF0FF, 0xF029)
  | .ldB _ => (0xF0FF, 0xF033)
  | .storeRegs _ => (0xF0FF, 0xF055)
  | .loadRegs _ => (0xF0FF, 0xF065)

/-- The instruction word that `nbits` bits `w` of the opcode table's numbering stand for: the table's rows are one 16-bit
word, bit 0 its least significant bit, and bits above `nbits` are 0. -/
def tableWord (nbits w : Nat) : Word := BitVec.ofNat 16 (w % 2 ^ nbits)

/-- The decoder applied to a word of the opcode table, laid out in memory order. The row FX0A is in the table, so it is read
with `KEYWAIT = wait` (assumption 3). -/
def decodeTableWord (nbits w : Nat) : Option Instr :=
  let word := tableWord nbits w
  match decodeBytes .wait [hiByte word, loByte word] with
  | .ok (i, _) => some i
  | .error _ => none

end Sys2Proof
end

