-- ==== Sys2Proof/Machine/State.lean ====
section
/-! DEFINITION. The state of the puce CORE as plain data (spec/10_state.md R20 to R33), the reasons a step can stop, and the
state after reset (R36, R240). -/

namespace Sys2Proof.Machine

/-- The five fault kinds (spec/60_exceptions.md R200). A fault is the hardware's exception: its entry sets the latch `FAULT`
and changes nothing else (R206), so it is a NEXT state of the model and no stop. -/
inductive FaultKind where
  | invalidOpcode
  | stackOverflow
  | stackUnderflow
  | memoryOutOfBounds
  | romTooLarge
  deriving DecidableEq, Repr

/-- The seven events by which the driver works the CORE, with their arguments (R210). -/
inductive Event where
  | reset
  | load (rom : List Byte)
  | step (rnd : Byte)
  | tick
  | keyPress (k : Nibble)
  | keyRelease
  | ackRedraw
  deriving DecidableEq, Repr

/-- Memory: the bytes that differ from their reset contents, as (address, byte) pairs in strictly rising address order. -/
abbrev Memory := List Host.Cell

/-- The display buffer: 32 rows of 64 one-bit cells, cell (x, y) being bit `x` of row `y`; as the flat, row-major sequence
of R31 it is cell number `y*64 + x`. -/
abbrev Frame := Vector (BitVec 64) 32

/-- The driver's side, which is the MODEL's own and no state of the CORE (R8, R35, R222; assumptions 2, 4 and 5). -/
structure Driver where
  /-- the events the driver will issue, the next one first; after them it issues Step events only -/
  schedule : List Event
  /-- the `rnd` argument of the Step event in progress; none leaves the byte free -/
  rnd      : Option Byte
  /-- how many random bytes have been drawn; the index of the next free one -/
  draws    : Nat
  /-- neither a Load nor a Step has happened since the last Reset (R243) -/
  loadable : Bool
  deriving DecidableEq, Repr

/-- The whole state (R20), the configuration it runs under and the driver's side. -/
structure State where
  /-- the parameters of R7, which no step changes -/
  config : Config
  /-- `V[0..15]` (R21, R22) -/
  regs   : Vector Byte 16
  /-- the index register `I` (R23) -/
  i      : Word
  /-- the program counter `PC` (R24) -/
  pc     : Word
  /-- the call stack slots `STACK[0..15]`, dead ones included (R25) -/
  stack  : Vector Word 16
  /-- the call stack depth `SP`, 0..16 (R26) -/
  sp     : Fin 17
  /-- the delay timer `DT` (R27) -/
  dt     : Byte
  /-- the sound timer `ST` (R28) -/
  st     : Byte
  /-- the key latch `KEY` (R29) -/
  key    : Option Nibble
  /-- memory `MEM[0..4095]` (R30) -/
  mem    : Memory
  /-- the display buffer `FB` (R31) -/
  fb     : Frame
  /-- the redraw flag `REDRAW` (R32) -/
  redraw : Bool
  /-- the fault latch `FAULT` (R33) -/
  fault  : Option FaultKind
  /-- the driver's side: no state of the CORE -/
  driver : Driver
  deriving DecidableEq, Repr

/-- Why the machine stops. -/
inductive Fault where
  /-- Raised by `step` alone: `FAULT` is latched and the driver has no event left but Steps, each of which does nothing and
  returns the latched fault (R207). Safe: nothing executes on the hardware either. -/
  | latched (kind : FaultKind)
  deriving DecidableEq, Repr

/-- Why the model gives no meaning. -/
inductive Refusal where
  /-- An instruction whose arm of `exec` has no meaning yet; raised by no arm of this model. Safe. -/
  | notModelled (mnemonic : String)
  /-- A Load event after a Load or a Step since the last Reset, raised by the Load event: "this spec gives a Load at any
  other time no meaning, and a model refuses it" (R243). Safe. -/
  | loadOutOfSequence
  deriving DecidableEq, Repr

/-- What an instruction or an event answers. -/
abbrev Result := Host.Outcome State Fault Refusal

/-- The machine right after reset (R36, R240), with the default parameters (R7) and a driver that has nothing scheduled.
Memory lists nothing: an unlisted address reads as its reset contents. -/
def State.reset : State where
  config := Config.defaults
  regs   := Vector.replicate 16 0
  i      := 0
  pc     := 0x0200
  stack  := Vector.replicate 16 0
  sp     := 0
  dt     := 0
  st     := 0
  key    := none
  mem    := []
  fb     := Vector.replicate 32 0
  redraw := false
  fault  := none
  driver := { schedule := [], rnd := none, draws := 0, loadable := true }

end Sys2Proof.Machine
end

