-- ==== Sys2Proof/Machine/Ops.lean ====
section
/-! DEFINITION. The named operations over memory, registers, program counter and call stack, and the two ends of a fault:
taking it (spec/60_exceptions.md R206) and leaving it by Reset (R208, R240). -/

namespace Sys2Proof.Machine

/-! ### Memory (spec/20_memory.md R50 to R57) -/

/-- What an address that memory does not list reads as: the reset contents, the glyph table at 0x000..0x04F and zero
everywhere else (R56, R57, R240). -/
def Memory.unlisted (g : Glyphs) (a : Nat) : Byte := if h : a < 80 then g[a] else 0

/-- The byte listed for an address. -/
def Memory.lookup : Memory → Nat → Option Byte
  | [], _ => none
  | (b, v) :: rest, a => if b = a then some v else Memory.lookup rest a

/-- `MEM[a]`. -/
def Memory.read (g : Glyphs) (m : Memory) (a : Nat) : Byte := (Memory.lookup m a).getD (Memory.unlisted g a)

/-- List `v` for the address `a`, at its place in the address order. -/
def Memory.insert : Memory → Nat → Byte → Memory
  | [], a, v => [(a, v)]
  | (b, u) :: rest, a, v =>
    if a < b then (a, v) :: (b, u) :: rest
    else if a = b then (a, v) :: rest
    else (b, u) :: Memory.insert rest a v

/-- Take the address `a` off the list. -/
def Memory.erase : Memory → Nat → Memory
  | [], _ => []
  | (b, u) :: rest, a => if a = b then Memory.erase rest a else (b, u) :: Memory.erase rest a

/-- `MEM[a] <- v`; a byte equal to the reset contents is not listed, so that equal memories are equal data. -/
def Memory.write (g : Glyphs) (m : Memory) (a : Nat) (v : Byte) : Memory :=
  if v = Memory.unlisted g a then Memory.erase m a else Memory.insert m a v

/-- The canonical form from the address `lo` up: addresses strictly rising, all of them in memory, and no entry equal to
what its address reads as unlisted. -/
def Memory.wfFrom (g : Glyphs) : Nat → Memory → Bool
  | _, [] => true
  | lo, (a, v) :: rest =>
    decide (lo ≤ a) && decide (a < memSize) && v != Memory.unlisted g a && Memory.wfFrom g (a + 1) rest

/-- The canonical form of memory. -/
def Memory.wf (g : Glyphs) (m : Memory) : Bool := Memory.wfFrom g 0 m

/-- `MEM[a]` of a state. -/
def State.readByte (s : State) (a : Nat) : Byte := Memory.read s.config.glyphs s.mem a

/-- `MEM[a] <- v` in a state. -/
def State.writeByte (s : State) (a : Nat) (v : Byte) : State :=
  { s with mem := Memory.write s.config.glyphs s.mem a v }

/-- Write bytes at ascending addresses from `a`. -/
def State.writeBytes (s : State) (a : Nat) : List Byte → State
  | [] => s
  | v :: rest => (s.writeByte a v).writeBytes (a + 1) rest

/-- All of `a..last` is in memory: no access to it raises MemoryOutOfBounds (R52, R53). Addresses are natural numbers and
never wrap (R54). -/
def inMemory (last : Nat) : Bool := decide (last ≤ 4095)

/-- `MemRead(a, 2)`, the big-endian word at `a`; none stands for MemoryOutOfBounds (R52, R55). -/
def State.readWord (s : State) (a : Nat) : Option Word :=
  if inMemory (a + 1) then some (wordOfBytes (s.readByte a) (s.readByte (a + 1))) else none

/-! ### General registers (spec/10_state.md R21) -/

/-- `V[r]`. -/
def State.reg (s : State) (r : RegIdx) : Byte := s.regs[r]

/-- `V[r] <- v`. -/
def State.setReg (s : State) (r : RegIdx) (v : Byte) : State := { s with regs := s.regs.set r v }

/-- The sixteen registers in ascending order. -/
def allRegs : List RegIdx := [0, 1, 2, 3, 4, 5, 6, 7, 8, 9, 10, 11, 12, 13, 14, 15]

/-- V0..Vx, inclusive (R164, R165). -/
def regsUpTo (x : RegIdx) : List RegIdx := allRegs.take (x.val + 1)

/-! ### Program counter (spec/40_step_cycle.md R111, spec/41_control_flow.md R120) -/

/-- The working copy a meaning starts from: `pc = pc0 + 2`, the address of the instruction after this one (R111). -/
def State.advance (s : State) : State := { s with pc := s.pc + 2 }

/-- `pc <- target`. -/
def State.setPc (s : State) (target : Word) : State := { s with pc := target }

/-- `if c then skip`, where `skip` is `pc <- pc + 2` on the working copy (R120). -/
def State.skipIf (s : State) (c : Bool) : State := if c then s.setPc (s.pc + 2) else s

/-! ### Call stack (R25, R26, R121, R123) -/

/-- `STACK[SP] <- v; SP <- SP + 1`; none when sixteen addresses are live. -/
def State.push (s : State) (v : Word) : Option State :=
  if h : s.sp.val < 16 then
    some { s with stack := s.stack.set s.sp.val v, sp := ⟨s.sp.val + 1, by omega⟩ }
  else none

/-- `SP <- SP - 1`, and the word in the slot it leaves, which keeps its value (R25); none when the stack is empty. -/
def State.pop (s : State) : Option (Word × State) :=
  if h : s.sp.val = 0 then none
  else some (s.stack[s.sp.val - 1], { s with sp := ⟨s.sp.val - 1, by omega⟩ })

/-! ### Faults (spec/60_exceptions.md R200, R206 to R208) -/

/-- The fault's code in the 3-bit latch (R200). -/
def FaultKind.code : FaultKind → BitVec 3
  | .invalidOpcode => 1
  | .stackOverflow => 2
  | .stackUnderflow => 3
  | .memoryOutOfBounds => 4
  | .romTooLarge => 5

/-- Taking a fault, the hardware's exception entry: the state the event began in, with `FAULT` latched and nothing else
changed; `PC` still points at the instruction (R206). A meaning applies it to the state it was given, never to its working
copy. -/
def State.raise (k : FaultKind) (s : State) : Result := .next { s with fault := some k }

/-- Leaving a fault: Reset is the only way (R208). Every piece of state takes its reset value (R240); the configuration is
no state (R35), and the driver keeps its own side, apart from being free to Load again (R243). -/
def State.resetEvent (s : State) : State :=
  { State.reset with config := s.config, driver := { s.driver with loadable := true } }

/-! ### Fetch (R112) -/

/-- The instruction word at `PC`; none stands for MemoryOutOfBounds (R112). -/
def State.fetch (s : State) : Option Word := s.readWord s.pc.toNat

/-- The start of a Step event (R110): the driver's `rnd` argument is in place and a Load is no longer in sequence. -/
def State.beginStep (s : State) (rnd : Option Byte) : State :=
  { s with driver := { s.driver with rnd := rnd, loadable := false } }

/-- The `rnd` input of the Step in progress (R8): the driver's byte, or a free one where the schedule names none. -/
def State.rndByte (s : State) : Byte := s.driver.rnd.getD (Config.freeRandom s.driver.draws)

/-- One random byte has been drawn. -/
def State.countDraw (s : State) : State := { s with driver := { s.driver with draws := s.driver.draws + 1 } }

/-! ### Placing an instruction where the next step fetches it -/

/-- The schedule with a Step event next: kept where it begins with one (or is empty), emptied otherwise. -/
def readySchedule : List Event → List Event
  | .step r :: rest => .step r :: rest
  | _ => []

/-- A state whose next step is a Step event that fetches: no fault latched, a Step next, and `PC` in 0..4094. -/
def State.readyToFetch (s : State) : State :=
  { s with
    fault := none
    pc := if s.pc.toNat ≤ 4094 then s.pc else 0x0200
    driver := { s.driver with schedule := readySchedule s.driver.schedule } }

/-- The word `w` stored at `PC`, big-endian, in a state that fetches it next. -/
def State.placeWord (s : State) (w : Word) : State :=
  s.readyToFetch.writeBytes s.readyToFetch.pc.toNat [hiByte w, loByte w]

end Sys2Proof.Machine
end

