-- ==== Sys2Proof/Machine/Operands.lean ====
section
/-! DEFINITION. The operand forms: immediates, the shift source, addresses through `I`, the key test, the decimal digits and
the sprite's cells. -/

namespace Sys2Proof.Machine

/-- `zext_16(nnn)` (spec/30_encoding.md R83). -/
def addrWord (nnn : Addr12) : Word := nnn.setWidth 16

/-- `zext_16(v)` of a register value (R128, R161, R162). -/
def byteWord (v : Byte) : Word := v.setWidth 16

/-- The effective address `I + k`, formed without wrap (spec/43_index_memory.md R166, spec/20_memory.md R54). -/
def State.indexed (s : State) (k : Nat) : Nat := s.i.toNat + k

/-- The source of a shift: `V[x]` or `V[y]` as `SHIFT_SRC` says (spec/42_alu.md R150, R152). -/
def State.shiftSource (s : State) (x y : RegIdx) : Byte :=
  match s.config.shiftSrc with
  | .vx => s.reg x
  | .vy => s.reg y

/-- `KEY = some k and zext_8(k) = V[x]` (spec/45_timer_key.md R183); no key latched matches no register. -/
def State.keyMatches (s : State) (x : RegIdx) : Bool :=
  match s.key with
  | some k => k.setWidth 8 == s.reg x
  | none => false

/-- The hundreds, tens and ones of a byte, each a byte of its own (R163). -/
def decimalDigits (v : Byte) : List Byte :=
  [BitVec.ofNat 8 (v.toNat / 100), BitVec.ofNat 8 (v.toNat / 10 % 10), BitVec.ofNat 8 (v.toNat % 10)]

/-! ### Sprites (spec/44_display.md R170, R172) -/

/-- The cell under column `px` and row `py`: reduced to the buffer with `SPRITE_EDGE = wrap`, absent outside it with
`SPRITE_EDGE = clip`; cell (x, y) is number `y*64 + x` (R64, R172). -/
def cellAt (edge : SpriteEdge) (px py : Nat) : Option Nat :=
  match edge with
  | .wrap => some (py % fbHeight * fbWidth + px % fbWidth)
  | .clip => if px < fbWidth ∧ py < fbHeight then some (py * fbWidth + px) else none

/-- The cells under the 1 pixels of one sprite row whose left end is column `vx` of row `py`; column offset `c` is bit
`7 - c` (R170). -/
def rowCells (edge : SpriteEdge) (vx py : Nat) (b : Byte) : List Nat :=
  [0, 1, 2, 3, 4, 5, 6, 7].filterMap fun c => if b.getLsbD (7 - c) then cellAt edge (vx + c) py else none

/-- The cells under a sprite, its rows given from the top one at row `vy` down. -/
def spriteCells (edge : SpriteEdge) (vx : Nat) : Nat → List Byte → List Nat
  | _, [] => []
  | vy, b :: rows => rowCells edge vx vy b ++ spriteCells edge vx (vy + 1) rows

/-- The `n` sprite bytes from `I` up (R172). -/
def State.spriteRows (s : State) (n : Nat) : List Byte := (List.range n).map fun r => s.readByte (s.indexed r)

/-- `FB[j]`: cell `j` of the flat sequence is column `j % 64` of row `j / 64` (R31, R64); there is no cell above 2047. -/
def Frame.cell (fb : Frame) (j : Nat) : Bool := if h : j < 2048 then fb[j / 64].getLsbD (j % 64) else false

/-- `FB[j]` of a state. -/
def State.cell (s : State) (j : Nat) : Bool := Frame.cell s.fb j

/-- `FB[j] <- FB[j] XOR 1`. -/
def Frame.toggle (fb : Frame) (j : Nat) : Frame :=
  if h : j < 2048 then fb.set (j / 64) (fb[j / 64] ^^^ (1#64 <<< (j % 64))) else fb

/-- The buffer with every cell 0 (R171). -/
def Frame.clear : Frame := Vector.replicate 32 0

end Sys2Proof.Machine
end

