-- ==== Sys2Proof/Machine/Flags.lean ====
section
/-! DEFINITION. Every value written to the flag register VF (spec/10_state.md R22): carry, no-borrow, the bit shifted out and
collision, and the order of the flag write and the result write (spec/42_alu.md R141). -/

namespace Sys2Proof.Machine

/-- A flag as it stands in VF: exactly 0 or 1 (R22). -/
def flagByte (f : Bool) : Byte := if f then 1 else 0

/-- The carry of an addition: the unbounded sum exceeds 255 (R140, R148). -/
def carryOut (a b : Byte) : Bool := decide (a.toNat + b.toNat > 255)

/-- The no-borrow flag of a subtraction: minuend at least subtrahend (R140, R149, R151). -/
def noBorrow (a b : Byte) : Bool := decide (a.toNat ≥ b.toNat)

/-- The bit a right shift moves out: the pre-shift bit 0 (R150). -/
def bitOutRight (v : Byte) : Bool := v.getLsbD 0

/-- The bit a left shift moves out: the pre-shift bit 7 (R152). -/
def bitOutLeft (v : Byte) : Bool := v.getLsbD 7

/-- Write the flag to VF, then the result to `V[x]`: with `x = 15` the result is what stays (R141). -/
def State.writeFlagThenResult (s : State) (x : RegIdx) (flag : Bool) (result : Byte) : State :=
  (s.setReg vf (flagByte flag)).setReg x result

/-- Toggle one cell; a cell that was 1 is a collision (R172). -/
def drawCell (acc : Frame × Bool) (j : Nat) : Frame × Bool :=
  (Frame.toggle acc.1 j, acc.2 || Frame.cell acc.1 j)

/-- Toggle cells one after another: the buffer they leave, and whether any was 1 when it was toggled (R172). -/
def drawCells (fb : Frame) (cells : List Nat) : Frame × Bool := cells.foldl drawCell (fb, false)

end Sys2Proof.Machine
end

