-- ==== Sys2Proof/Machine/Alu.lean ====
section
/-! DEFINITION. The register load, arithmetic, logic, shift and random instructions (spec/42_alu.md R142 to R153). Byte
arithmetic wraps modulo 256 (R140); operands are read from the state the step began in (R141). -/

namespace Sys2Proof.Machine

/-- `LD Vx, nn` (R142). -/
def execLdImm (x : RegIdx) (nn : Byte) (s : State) : Result := .next (s.advance.setReg x nn)

/-- `ADD Vx, nn` (R143): VF is not written as a flag. -/
def execAddImm (x : RegIdx) (nn : Byte) (s : State) : Result := .next (s.advance.setReg x (s.reg x + nn))

/-- `LD Vx, Vy` (R144). -/
def execLdReg (x y : RegIdx) (s : State) : Result := .next (s.advance.setReg x (s.reg y))

/-- `OR Vx, Vy` (R145). -/
def execOrReg (x y : RegIdx) (s : State) : Result := .next (s.advance.setReg x (s.reg x ||| s.reg y))

/-- `AND Vx, Vy` (R146). -/
def execAndReg (x y : RegIdx) (s : State) : Result := .next (s.advance.setReg x (s.reg x &&& s.reg y))

/-- `XOR Vx, Vy` (R147). -/
def execXorReg (x y : RegIdx) (s : State) : Result := .next (s.advance.setReg x (s.reg x ^^^ s.reg y))

/-- `ADD Vx, Vy` (R148). -/
def execAddReg (x y : RegIdx) (s : State) : Result :=
  .next (s.advance.writeFlagThenResult x (carryOut (s.reg x) (s.reg y)) (s.reg x + s.reg y))

/-- `SUB Vx, Vy` (R149): the minuend is `V[x]`. -/
def execSubReg (x y : RegIdx) (s : State) : Result :=
  .next (s.advance.writeFlagThenResult x (noBorrow (s.reg x) (s.reg y)) (s.reg x - s.reg y))

/-- `SHR Vx, Vy` (R150). -/
def execShr (x y : RegIdx) (s : State) : Result :=
  .next (s.advance.writeFlagThenResult x (bitOutRight (s.shiftSource x y)) (s.shiftSource x y >>> 1))

/-- `SUBN Vx, Vy` (R151): the minuend is `V[y]`. -/
def execSubn (x y : RegIdx) (s : State) : Result :=
  .next (s.advance.writeFlagThenResult x (noBorrow (s.reg y) (s.reg x)) (s.reg y - s.reg x))

/-- `SHL Vx, Vy` (R152). -/
def execShl (x y : RegIdx) (s : State) : Result :=
  .next (s.advance.writeFlagThenResult x (bitOutLeft (s.shiftSource x y)) (s.shiftSource x y <<< 1))

/-- `RND Vx, nn` (R153). -/
def execRnd (x : RegIdx) (nn : Byte) (s : State) : Result :=
  .next (s.advance.countDraw.setReg x (s.rndByte &&& nn))

end Sys2Proof.Machine
end

