-- ==== Sys2Proof/Machine/Control.lean ====
section
/-! DEFINITION. The control-transfer instructions (spec/41_control_flow.md R121 to R128). -/

namespace Sys2Proof.Machine

/-- `RET` (R121). -/
def execRet (s : State) : Result :=
  match s.advance.pop with
  | none => s.raise .stackUnderflow
  | some (target, w) => .next (w.setPc target)

/-- `JP nnn` (R122). -/
def execJp (nnn : Addr12) (s : State) : Result := .next (s.advance.setPc (addrWord nnn))

/-- `CALL nnn` (R123): the pushed address is the advanced `pc`. -/
def execCall (nnn : Addr12) (s : State) : Result :=
  match s.advance.push s.advance.pc with
  | none => s.raise .stackOverflow
  | some w => .next (w.setPc (addrWord nnn))

/-- `SE Vx, nn` (R124). -/
def execSeImm (x : RegIdx) (nn : Byte) (s : State) : Result := .next (s.advance.skipIf (s.reg x == nn))

/-- `SNE Vx, nn` (R125). -/
def execSneImm (x : RegIdx) (nn : Byte) (s : State) : Result := .next (s.advance.skipIf (s.reg x != nn))

/-- `SE Vx, Vy` (R126). -/
def execSeReg (x y : RegIdx) (s : State) : Result := .next (s.advance.skipIf (s.reg x == s.reg y))

/-- `SNE Vx, Vy` (R127). -/
def execSneReg (x y : RegIdx) (s : State) : Result := .next (s.advance.skipIf (s.reg x != s.reg y))

/-- `JP V0, nnn` (R128): the sum is not reduced modulo 4096. -/
def execJpV0 (nnn : Addr12) (s : State) : Result :=
  .next (s.advance.setPc (addrWord nnn + byteWord (s.reg 0)))

end Sys2Proof.Machine
end

