-- ==== Sys2Proof/Machine/Display.lean ====
section
/-! DEFINITION. The display instructions (spec/44_display.md R171, R172). -/

namespace Sys2Proof.Machine

/-- `CLS` (R171). -/
def execCls (s : State) : Result := .next { s.advance with fb := Frame.clear, redraw := true }

/-- The addresses of a sprite of `n` rows are all in memory; with no row there is none to check (R172). -/
def State.spriteInMemory (s : State) (n : Nat) : Bool := n == 0 || inMemory (s.indexed (n - 1))

/-- `DRW Vx, Vy, n` (R172): the coordinates are read before VF is written, VF is the collision flag, `REDRAW` is set
always. -/
def execDrw (x y : RegIdx) (n : Fin 16) (s : State) : Result :=
  if s.spriteInMemory n.val then
    let cells := spriteCells s.config.spriteEdge (s.reg x).toNat (s.reg y).toNat (s.spriteRows n.val)
    let drawn := drawCells s.fb cells
    .next { s.advance.setReg vf (flagByte drawn.2) with fb := drawn.1, redraw := true }
  else s.raise .memoryOutOfBounds

end Sys2Proof.Machine
end

