-- ==== Sys2Proof/Machine/IndexMem.lean ====
section
/-! DEFINITION. The index-register and memory instructions (spec/43_index_memory.md R160 to R165). -/

namespace Sys2Proof.Machine

/-- `LD I, nnn` (R160). -/
def execLdI (nnn : Addr12) (s : State) : Result := .next { s.advance with i := addrWord nnn }

/-- `ADD I, Vx` (R161): wraps modulo 65536, VF untouched. -/
def execAddI (x : RegIdx) (s : State) : Result := .next { s.advance with i := s.i + byteWord (s.reg x) }

/-- `LD F, Vx` (R162): the whole register value times the glyph stride. -/
def execLdF (x : RegIdx) (s : State) : Result :=
  .next { s.advance with i := byteWord (s.reg x) * BitVec.ofNat 16 glyphStride }

/-- `LD B, Vx` (R163). -/
def execLdB (x : RegIdx) (s : State) : Result :=
  if inMemory (s.indexed 2) then .next (s.advance.writeBytes (s.indexed 0) (decimalDigits (s.reg x)))
  else s.raise .memoryOutOfBounds

/-- `LD [I], Vx` (R164): `V[0..x]` at ascending addresses, `I` unchanged. -/
def execStoreRegs (x : RegIdx) (s : State) : Result :=
  if inMemory (s.indexed x.val) then .next (s.advance.writeBytes (s.indexed 0) ((regsUpTo x).map s.reg))
  else s.raise .memoryOutOfBounds

/-- The loop of R165: each register of the list from its own offset of `I`. -/
def loadRegsFrom (s : State) (rs : List RegIdx) : State :=
  rs.foldl (fun w r => w.setReg r (w.readByte (w.indexed r.val))) s

/-- `LD Vx, [I]` (R165): `V[0..x]` from ascending addresses, `I` unchanged. -/
def execLoadRegs (x : RegIdx) (s : State) : Result :=
  if inMemory (s.indexed x.val) then .next (loadRegsFrom s.advance (regsUpTo x))
  else s.raise .memoryOutOfBounds

end Sys2Proof.Machine
end

