-- ==== Sys2Proof/Machine/TimerKey.lean ====
section
/-! DEFINITION. The timer and key instructions (spec/45_timer_key.md R180 to R185). -/

namespace Sys2Proof.Machine

/-- `LD Vx, DT` (R180). -/
def execLdVxDT (x : RegIdx) (s : State) : Result := .next (s.advance.setReg x s.dt)

/-- `LD DT, Vx` (R181). -/
def execLdDTVx (x : RegIdx) (s : State) : Result := .next { s.advance with dt := s.reg x }

/-- `LD ST, Vx` (R182). -/
def execLdSTVx (x : RegIdx) (s : State) : Result := .next { s.advance with st := s.reg x }

/-- `SKP Vx` (R183). -/
def execSkp (x : RegIdx) (s : State) : Result := .next (s.advance.skipIf (s.keyMatches x))

/-- `SKNP Vx` (R184). -/
def execSknp (x : RegIdx) (s : State) : Result := .next (s.advance.skipIf (!s.keyMatches x))

/-- `LD Vx, K` (R185). With `KEYWAIT = fault` the word is illegal and InvalidOpcode is taken. With `KEYWAIT = wait` and no
key latched, `pc <- pc0` undoes the advance, so the instruction runs again next step. -/
def execLdVxK (x : RegIdx) (s : State) : Result :=
  match s.config.keyWait, s.key with
  | .fault, _ => s.raise .invalidOpcode
  | .wait, some k => .next (s.advance.setReg x (k.setWidth 8))
  | .wait, none => .next (s.advance.setPc s.pc)

end Sys2Proof.Machine
end

