-- ==== Sys2Proof/Machine/Events.lean ====
section
/-! DEFINITION. The events of the CORE other than Step (spec/60_exceptions.md R210 to R222, spec/70_reset_and_hazards.md
R243), its four outputs (spec/10_state.md R34) and the results Step and Load return (R114, R243). Reset is
`State.resetEvent`, beside taking a fault. -/

namespace Sys2Proof.Machine

/-- One timer counts down by 1, floored at 0 (R213). -/
def countDown (t : Byte) : Byte := if t.toNat > 0 then t - 1 else t

/-- `Tick` (R213): both timers at once; it acts in a faulted machine too (R221). -/
def State.tick (s : State) : State := { s with dt := countDown s.dt, st := countDown s.st }

/-- `KeyPress(k)` (R215): a new press overwrites the latch. -/
def State.keyPress (k : Nibble) (s : State) : State := { s with key := some k }

/-- `KeyRelease` (R216): clears the latch whichever key it holds. -/
def State.keyRelease (s : State) : State := { s with key := none }

/-- `AckRedraw` (R218). -/
def State.ackRedraw (s : State) : State := { s with redraw := false }

/-- `Load(rom)` (R243): nothing while a fault is latched (R207); refused unless neither a Load nor a Step has happened since
Reset; RomTooLarge above 3584 bytes (R205); otherwise the bytes verbatim from 0x200 up. -/
def State.loadEvent (rom : List Byte) (s : State) : Result :=
  if s.fault.isSome then .next s
  else if !s.driver.loadable then .refused .loadOutOfSequence
  else if rom.length > romMax then s.raise .romTooLarge
  else .next { s.writeBytes progBase rom with driver := { s.driver with loadable := false } }

/-- The output `fb_out` (R34, R219). -/
def State.fbOut (s : State) : Frame := s.fb

/-- The output `redraw` (R34, R218). -/
def State.redrawOut (s : State) : Bool := s.redraw

/-- The output `tone` (R34, R220). -/
def State.tone (s : State) : Bool := decide (s.st.toNat > 0)

/-- The output `fault` (R34): the latch's code, 0 for none (R200). -/
def State.faultOut (s : State) : BitVec 3 :=
  match s.fault with
  | none => 0
  | some k => k.code

/-- What a Step returns (R114). -/
inductive StepResponse where
  | ok (redraw tone : Bool)
  | fault (kind : FaultKind)
  deriving DecidableEq, Repr

/-- The response of a Step, read from the state it leaves (R114, R207). -/
def State.stepResponse (s : State) : StepResponse :=
  match s.fault with
  | none => .ok s.redrawOut s.tone
  | some k => .fault k

/-- The response of a Load, read from the state it leaves: none is `ok` (R243, R207). -/
def State.loadResponse (s : State) : Option FaultKind := s.fault

end Sys2Proof.Machine
end

