-- ==== Sys2Proof/Machine/Cycle.lean ====
section
/-! DEFINITION. The Step event (spec/40_step_cycle.md R110 to R114) and the application of one event of the driver
(spec/60_exceptions.md R210, R222). -/

namespace Sys2Proof.Machine

/-- Phases (1) to (5) of the Step event (R110): fetch, decode, execute, commit. -/
def runInstruction (s : State) : Result :=
  match s.fetch with
  | none => s.raise .memoryOutOfBounds
  | some w =>
    match decode s.config.keyWait w with
    | .error _ => s.raise .invalidOpcode
    | .ok i => exec i s

/-- `Step(rnd)` (R110): while a fault is latched it does nothing (R207). -/
def stepEvent (rnd : Option Byte) (s : State) : Result :=
  if s.fault.isSome then .next s else runInstruction (s.beginStep rnd)

/-- One event (R210). -/
def applyEvent (e : Event) (s : State) : Result :=
  match e with
  | .reset => .next s.resetEvent
  | .load rom => s.loadEvent rom
  | .step r => stepEvent (some r) s
  | .tick => .next s.tick
  | .keyPress k => .next (s.keyPress k)
  | .keyRelease => .next s.keyRelease
  | .ackRedraw => .next s.ackRedraw

/-- The event at the head of the schedule has been issued. -/
def State.issued (s : State) (rest : List Event) : State := { s with driver := { s.driver with schedule := rest } }

/-- The next event of the driver (R222): the head of the schedule; with none scheduled, a Step with a free random byte,
which stops the machine where a fault is latched (R207). -/
def nextEvent (s : State) : Result :=
  match s.driver.schedule with
  | e :: rest => applyEvent e (s.issued rest)
  | [] =>
    match s.fault with
    | some k => .fault (.latched k)
    | none => stepEvent none s

end Sys2Proof.Machine
end

