-- ==== Sys2Proof/Machine/Step.lean ====
section
/-! DEFINITION. One step of the machine, and a state that fetches a given word next. -/

namespace Sys2Proof.Machine

/-- One event of the driver, by default a Step event (spec/60_exceptions.md R210, R222, spec/40_step_cycle.md R110). -/
def step (s : State) : Host.Outcome State Fault Refusal := nextEvent s

/-- `s` with the opcode-table word `w` of `nbits` bits where the next step fetches its instruction. -/
def State.withFetchWord (s : State) (nbits w : Nat) : State := s.placeWord (tableWord nbits w)

end Sys2Proof.Machine
end

