-- ==== Sys2Proof/Safety.lean ====
section
/-! DEFINITION. The terms in which claims are made: a running machine, the invariant of the reachable states
(spec/10_state.md R37), the parts of the state and what an instruction leaves unchanged, the cells a sprite covers
(spec/44_display.md R172), and the end of a run (spec/70_reset_and_hazards.md R250). -/

namespace Sys2Proof.Machine

/-- No fault is latched: the next Step executes an instruction (R207, R212). -/
abbrev State.Running (s : State) : Prop := s.fault = none

/-- A Step event comes next: the driver has nothing scheduled, which leaves the random byte free, or a Step is at the head of
its schedule. -/
abbrev State.StepIsNext (s : State) : Prop := s.driver.schedule = [] ∨ ∃ r rest, s.driver.schedule = .step r :: rest

/-- What R37 says of every reachable state and the types of the fields do not: memory is in canonical form, `PC ≤ 4350`, and
every live stack slot holds at most 4096. -/
abbrev State.Inv (s : State) : Prop :=
  Memory.wf s.config.glyphs s.mem = true ∧
  s.pc.toNat ≤ 4350 ∧
  ∀ j : Fin 16, j.val < s.sp.val → (s.stack[j]).toNat ≤ 4096

/-! ### Frames -/

/-- The parts of the state: one register, one memory byte, one display cell or one stack slot at a time. -/
inductive Part where
  | reg (r : RegIdx)
  | index
  | pc
  | slot (j : Fin 16)
  | depth
  | delay
  | sound
  | key
  | byte (a : Nat)
  | cell (j : Nat)
  | redraw
  | fault
  | config
  | driver
  deriving DecidableEq, Repr

/-- A part reads the same in two states. -/
def Part.Same (s t : State) : Part → Prop
  | .reg r => t.reg r = s.reg r
  | .index => t.i = s.i
  | .pc => t.pc = s.pc
  | .slot j => t.stack[j] = s.stack[j]
  | .depth => t.sp = s.sp
  | .delay => t.dt = s.dt
  | .sound => t.st = s.st
  | .key => t.key = s.key
  | .byte a => t.readByte a = s.readByte a
  | .cell j => t.cell j = s.cell j
  | .redraw => t.redraw = s.redraw
  | .fault => t.fault = s.fault
  | .config => t.config = s.config
  | .driver => t.driver = s.driver

/-- Every part outside `changed` reads the same before and after. -/
def UnchangedBut (changed : Part → Prop) (s t : State) : Prop := ∀ p, ¬ changed p → Part.Same s t p

/-- The word is decoded as the instruction wherever the configuration has it. -/
def EncodedAs (i : Instr) (w : Word) : Prop := ∀ kw, i.wellFormed kw = true → decode kw w = .ok i

/-! ### Sprites -/

/-- Cell `j` lies under a 1 pixel of the sprite that `DRW Vx, Vy, n` draws in `s`: pixel (c, r) is bit `7 - c` of the byte
at `I + r`, its column is `V[x] + c` and its row `V[y] + r`, reduced or dropped as `SPRITE_EDGE` says (R170, R172). -/
def State.Covers (s : State) (x y : RegIdx) (n : Nat) (j : Nat) : Prop :=
  ∃ r, r < n ∧ ∃ c, c < 8 ∧ (s.readByte (s.i.toNat + r)).getLsbD (7 - c) = true ∧
    match s.config.spriteEdge with
    | .wrap => j = ((s.reg y).toNat + r) % 32 * 64 + ((s.reg x).toNat + c) % 64
    | .clip => (s.reg x).toNat + c < 64 ∧ (s.reg y).toNat + r < 32 ∧
        j = ((s.reg y).toNat + r) * 64 + ((s.reg x).toNat + c)

/-! ### The end of a run -/

/-- `END_OF_RUN`, which the spec leaves to the model (R250, D26; assumption 8): the suggested definition, `PC = a` and the
word at `a` is `JP a`. -/
def State.finished (s : State) : Bool := s.fetch == some (encodeA 0x1 (s.pc.setWidth 12)) && decide (s.pc.toNat ≤ 0xFFF)

end Sys2Proof.Machine
end

