-- ==== Sys2Proof/Certificates/Slice0/Obligations.lean ====
section
/-! DEFINITION. The statements about the puce CORE model, each a numbered rule of spec/ or derived from its sections. A frame
is said part by part through the model's own reads (`UnchangedBut`): every register, flag, stack slot, timer, latch, display
cell and memory byte that is not named keeps what it read. -/

open Sys2Proof Sys2Proof.Machine

/-! ### Encoding -/

/-- R93: every word is the concatenation of its four nibbles, and a word rebuilt from the fields of a legal instruction
decodes to the same instruction with the same field values. -/
def Obligations.DecodeInvertsEncode : Prop :=
  (∀ w : Word, opField w ++ xField w ++ yField w ++ nField w = w) ∧
  (∀ kw i, i.wellFormed kw = true → decode kw (encode i) = .ok i)

/-- R84, R93, the other direction: a word that decodes is the encoding of what it decodes to, so no two words share an
instruction, and the decoder answers only instructions that the configuration has. -/
def Obligations.EncodeInvertsDecode : Prop :=
  ∀ kw w i, decode kw w = .ok i → encode i = w ∧ i.wellFormed kw = true

/-- R84, R86: a word's masked bits equal a row's match exactly when the word decodes to an instruction of that row, so every
word matches at most one row. -/
def Obligations.TableRowsSelectInstructions : Prop :=
  ∀ (w : Word) (j : Instr),
    w &&& (tableRow j).1 = (tableRow j).2 ↔ ∃ i, decode .wait w = .ok i ∧ tableRow i = tableRow j

/-- R87: the illegal words are exactly those of the classes (a) to (g). -/
def Obligations.IllegalWordsAreSevenClasses : Prop :=
  ∀ kw w, (∃ e, decode kw w = .error e) ↔
    (opField w = 0x0 ∧ w ≠ 0x00E0 ∧ w ≠ 0x00EE) ∨
    (opField w = 0x5 ∧ nField w ≠ 0) ∨
    (opField w = 0x8 ∧ nField w ∈ [0x8, 0x9, 0xA, 0xB, 0xC, 0xD, 0xF]) ∨
    (opField w = 0x9 ∧ nField w ≠ 0) ∨
    (opField w = 0xE ∧ nnField w ∉ [0x9E, 0xA1]) ∨
    (opField w = 0xF ∧ nnField w ∉ [0x07, 0x0A, 0x15, 0x18, 0x1E, 0x29, 0x33, 0x55, 0x65]) ∨
    (opField w = 0xF ∧ nnField w = 0x0A ∧ kw = .fault)

/-- R86: words written out from the patterns of the table, one of every class, decode to the instructions they stand for. -/
def Obligations.SpecWordsDecode : Prop :=
  decode .fault 0x00E0 = .ok .cls ∧ decode .fault 0x1234 = .ok (.jp 0x234) ∧
  decode .fault 0x2ABC = .ok (.call 0xABC) ∧ decode .fault 0x3A42 = .ok (.seImm 10 0x42) ∧
  decode .fault 0x4A42 = .ok (.sneImm 10 0x42) ∧ decode .fault 0x5120 = .ok (.seReg 1 2) ∧
  decode .fault 0x65AB = .ok (.ldImm 5 0xAB) ∧ decode .fault 0x7220 = .ok (.addImm 2 0x20) ∧
  decode .fault 0x8127 = .ok (.subn 1 2) ∧ decode .fault 0x9120 = .ok (.sneReg 1 2) ∧
  decode .fault 0xA2F0 = .ok (.ldI 0x2F0) ∧ decode .fault 0xB300 = .ok (.jpV0 0x300) ∧
  decode .fault 0xC40F = .ok (.rnd 4 0x0F) ∧ decode .fault 0xD12F = .ok (.drw 1 2 15) ∧
  decode .fault 0xE2A1 = .ok (.sknp 2) ∧ decode .fault 0xF255 = .ok (.storeRegs 2) ∧
  decode .wait 0xF30A = .ok (.ldVxK 3)

/-! ### The step -/

/-- R8, R110, R111, R113: a Step of a running machine whose two bytes at `PC` decode to an instruction is the execution of that
instruction, with the byte that `Step(rnd)` names as its random byte; the step itself moves only the driver's side, and `PC` is
advanced inside the instruction. That an empty schedule stands for a Step that names no byte is the model's choice (assumptions 2
and 4), and that a Step takes the Load out of sequence is assumption 5. -/
def Obligations.StepRunsTheDecodedInstruction : Prop :=
  ∀ (s : State) (i : Instr), s.fault = none → s.pc.toNat ≤ 4094 →
    decode s.config.keyWait (s.readByte s.pc.toNat ++ s.readByte (s.pc.toNat + 1)) = .ok i →
    (s.driver.schedule = [] → step s = exec i (s.beginStep none) ∧
      (s.beginStep none).driver = { s.driver with rnd := none, loadable := false }) ∧
    (∀ r rest, s.driver.schedule = .step r :: rest → step s = exec i ((s.issued rest).beginStep (some r)) ∧
      ((s.issued rest).beginStep (some r)).driver =
        { s.driver with schedule := rest, rnd := some r, loadable := false }) ∧
    (∀ r rest, UnchangedBut (· = .driver) s ((s.issued rest).beginStep r))

/-- R112: the fetch is the big-endian word at `PC`, and past 4094 the step takes MemoryOutOfBounds. -/
def Obligations.FetchIsBigEndianAndBounded : Prop :=
  ∀ s : State,
    (s.pc.toNat ≤ 4094 → s.fetch = some (s.readByte s.pc.toNat ++ s.readByte (s.pc.toNat + 1))) ∧
    (s.Running → s.StepIsNext → 4094 < s.pc.toNat →
      ∃ t, step s = .next t ∧ t.fault = some .memoryOutOfBounds ∧
        UnchangedBut (fun p => p = .fault ∨ p = .driver) s t)

/-- R201: a Step whose fetched word is illegal takes InvalidOpcode and nothing else. -/
def Obligations.IllegalWordTakesInvalidOpcode : Prop :=
  ∀ (s : State) (e : Illegal), s.Running → s.StepIsNext → s.pc.toNat ≤ 4094 →
    decode s.config.keyWait (s.readByte s.pc.toNat ++ s.readByte (s.pc.toNat + 1)) = .error e →
    ∃ t, step s = .next t ∧ t.fault = some .invalidOpcode ∧ t.stepResponse = .fault .invalidOpcode ∧
      UnchangedBut (fun p => p = .fault ∨ p = .driver) s t

/-- R207: while a fault is latched, Step and Load do nothing and return it, and no event but Reset replaces it. -/
def Obligations.LatchedFaultIsTerminal : Prop :=
  ∀ (s : State) (k : FaultKind), s.fault = some k →
    (∀ r, applyEvent (.step r) s = .next s) ∧ s.stepResponse = .fault k ∧
    (∀ rom, applyEvent (.load rom) s = .next s) ∧ s.loadResponse = some k ∧
    (∀ e t, e ≠ .reset → applyEvent e s = .next t → t.fault = some k)

/-- R206: an event that raises a fault has no effect on the state except that `FAULT` becomes the fault's kind. -/
def Obligations.FaultingEventChangesOnlyTheLatch : Prop :=
  ∀ (s t : State) (e : Event) (k : FaultKind), s.fault = none → applyEvent e s = .next t → t.fault = some k →
    t = { s with fault := some k, driver := t.driver } ∧ UnchangedBut (fun p => p = .fault ∨ p = .driver) s t ∧
    t.stepResponse = .fault k

/-- R200 to R204: which instruction takes which fault, and on exactly which states; no instruction takes RomTooLarge. That the
meaning of LD Vx, K itself takes InvalidOpcode with `KEYWAIT = fault`, where the rules give that fault to decode, is deduced
(assumption 18). -/
def Obligations.InstructionFaultsHaveTheirConditions : Prop :=
  ∀ (i : Instr) (s t : State), s.fault = none → exec i s = .next t →
    (t.fault = some .stackOverflow ↔ s.sp.val = 16 ∧ ∃ nnn, i = .call nnn) ∧
    (t.fault = some .stackUnderflow ↔ s.sp.val = 0 ∧ i = .ret) ∧
    (t.fault = some .memoryOutOfBounds ↔
      (∃ x y n, i = .drw x y n ∧ n.val ≥ 1 ∧ s.i.toNat + n.val - 1 > 4095) ∨
      (∃ x, i = .ldB x ∧ s.i.toNat + 2 > 4095) ∨
      (∃ x, i = .storeRegs x ∧ s.i.toNat + x.val > 4095) ∨
      (∃ x, i = .loadRegs x ∧ s.i.toNat + x.val > 4095)) ∧
    (t.fault = some .invalidOpcode ↔ s.config.keyWait = .fault ∧ ∃ x, i = .ldVxK x) ∧
    t.fault ≠ some .romTooLarge

/-- R210, R207, R243: a step stops in two cases, and in no other. With nothing scheduled and a fault latched it stops with that
fault (assumption 6, the model's choice), and a Load out of sequence is refused; otherwise it answers a next state. -/
def Obligations.StepStopsOnlyAsNamed : Prop :=
  ∀ s : State,
    (∀ k, s.driver.schedule = [] → s.fault = some k → step s = .fault (.latched k)) ∧
    (∀ rom rest, s.driver.schedule = .load rom :: rest → s.fault = none → s.driver.loadable = false →
      step s = .refused .loadOutOfSequence) ∧
    ((∃ t, step s = .next t) ∨
     (∃ k, s.driver.schedule = [] ∧ s.fault = some k) ∨
     (∃ rom rest, s.driver.schedule = .load rom :: rest ∧ s.fault = none ∧ s.driver.loadable = false))

/-- R37 (which the spec marks as derived): the bounds on `PC` and on the live stack slots, and the canonical form of memory,
are kept by every step, whatever event the driver issues. -/
def Obligations.StepKeepsTheInvariant : Prop :=
  ∀ s t : State, s.Inv → step s = .next t → t.Inv

/-- R37: the reset state meets the invariant under every configuration and every driver. -/
def Obligations.ResetMeetsTheInvariant : Prop :=
  ∀ (c : Config) (d : Driver), State.Inv { State.reset with config := c, driver := d }

/-- R37, R221: once a fault is latched, an event other than Reset changes at most the timers, the key latch and the redraw
flag. -/
def Obligations.FaultFreezesTheProgramState : Prop :=
  ∀ (s t : State) (e : Event) (k : FaultKind), s.fault = some k → e ≠ .reset → applyEvent e s = .next t →
    t.fault = some k ∧
    UnchangedBut (fun p => p = .delay ∨ p = .sound ∨ p = .key ∨ p = .redraw) s t

/-- R113: an instruction never changes the key latch, changes a timer only where it is the load of that timer, and never
clears `REDRAW`, which only CLS and DRW set. -/
def Obligations.InstructionsLeaveTheOtherEngines : Prop :=
  ∀ (i : Instr) (s t : State), exec i s = .next t →
    t.key = s.key ∧
    (t.dt ≠ s.dt → ∃ x, i = .ldDTVx x) ∧
    (t.st ≠ s.st → ∃ x, i = .ldSTVx x) ∧
    (s.redraw = true → t.redraw = true) ∧
    (t.redraw ≠ s.redraw → i = .cls ∨ ∃ x y n, i = .drw x y n)

/-- R22: VF changes only under a flag-writing instruction or one whose destination is register 15. -/
def Obligations.FlagRegisterWriters : Prop :=
  ∀ (i : Instr) (s t : State), exec i s = .next t → t.reg vf ≠ s.reg vf →
    (∃ x y, i = .addReg x y ∨ i = .subReg x y ∨ i = .subn x y ∨ i = .shr x y ∨ i = .shl x y) ∨
    (∃ x y n, i = .drw x y n) ∨
    (∃ nn, i = .ldImm vf nn ∨ i = .addImm vf nn ∨ i = .rnd vf nn) ∨
    (∃ y, i = .ldReg vf y ∨ i = .orReg vf y ∨ i = .andReg vf y ∨ i = .xorReg vf y) ∨
    i = .ldVxDT vf ∨ i = .ldVxK vf ∨ i = .loadRegs vf

/-- R23, R26, R30, R31: only three instructions write `I`, only CALL and RET the stack, only `LD B` and `LD [I], Vx` memory,
only CLS and DRW the display. -/
def Obligations.OnlyTheNamedInstructionsWrite : Prop :=
  ∀ (i : Instr) (s t : State), exec i s = .next t →
    (t.i ≠ s.i → (∃ nnn, i = .ldI nnn) ∨ (∃ x, i = .addI x) ∨ (∃ x, i = .ldF x)) ∧
    (t.sp ≠ s.sp ∨ t.stack ≠ s.stack → i = .ret ∨ ∃ nnn, i = .call nnn) ∧
    (∀ a, t.readByte a ≠ s.readByte a → (∃ x, i = .ldB x) ∨ ∃ x, i = .storeRegs x) ∧
    (∀ j, t.cell j ≠ s.cell j → i = .cls ∨ ∃ x y n, i = .drw x y n)

/-- R35: the configuration parameters cannot change while the machine runs. -/
def Obligations.ConfigurationNeverChanges : Prop :=
  ∀ s t : State, step s = .next t → t.config = s.config

/-- R250 (whose list the spec marks as derived): a Step changes nothing exactly when the word at `PC` is a jump to itself, a
`JP V0` to itself, or a key wait with no key latched. -/
def Obligations.StepFixedPoints : Prop :=
  ∀ s t : State, s.Running → s.pc.toNat ≤ 4094 → s.StepIsNext → step s = .next t →
    (UnchangedBut (· = .driver) s t ↔
      ∃ i, decode s.config.keyWait (s.readByte s.pc.toNat ++ s.readByte (s.pc.toNat + 1)) = .ok i ∧
        ((∃ nnn, i = .jp nnn ∧ nnn.toNat = s.pc.toNat) ∨
         (∃ nnn, i = .jpV0 nnn ∧ nnn.toNat + (s.reg 0).toNat = s.pc.toNat) ∨
         (∃ x, i = .ldVxK x ∧ s.key = none)))

/-! ### Control transfer -/

/-- R121: RET pops the return address, leaves the slot it came from as it was, and takes StackUnderflow on an empty stack. -/
def Obligations.RetPopsTheReturnAddress : Prop :=
  EncodedAs .ret 0x00EE ∧
  ∀ s : State,
    (s.sp.val = 0 → exec .ret s = s.raise .stackUnderflow) ∧
    (s.sp.val ≠ 0 → ∃ t, exec .ret s = .next t ∧ t.sp.val = s.sp.val - 1 ∧
      s.stack[s.sp.val - 1]? = some t.pc ∧ UnchangedBut (fun p => p = .pc ∨ p = .depth) s t)

/-- R122: JP loads the 12-bit address into `PC` and changes nothing else. -/
def Obligations.JpLoadsTheAddress : Prop :=
  ∀ (s : State) (nnn : Addr12), EncodedAs (.jp nnn) (encodeA 0x1 nnn) ∧
    ∃ t, exec (.jp nnn) s = .next t ∧ t.pc.toNat = nnn.toNat ∧ UnchangedBut (· = .pc) s t

/-- R123: CALL pushes the address of the instruction after it, unmasked, and jumps; on a full stack it takes StackOverflow. -/
def Obligations.CallPushesTheReturnAddress : Prop :=
  ∀ (s : State) (nnn : Addr12), EncodedAs (.call nnn) (encodeA 0x2 nnn) ∧
    (s.sp.val = 16 → exec (.call nnn) s = s.raise .stackOverflow) ∧
    (s.sp.val < 16 → ∃ t, exec (.call nnn) s = .next t ∧ t.sp.val = s.sp.val + 1 ∧
      t.stack[s.sp.val]? = some (s.pc + 2) ∧ t.pc.toNat = nnn.toNat ∧
      UnchangedBut (fun p => p = .pc ∨ p = .depth ∨ ∃ j, p = .slot j ∧ j.val = s.sp.val) s t)

/-- R128: the target of JP V0 is the sum of the address and V0, not reduced modulo 4096. -/
def Obligations.JpV0AddsRegisterZero : Prop :=
  ∀ (s : State) (nnn : Addr12), EncodedAs (.jpV0 nnn) (encodeA 0xB nnn) ∧
    ∃ t, exec (.jpV0 nnn) s = .next t ∧ t.pc.toNat = nnn.toNat + (s.reg 0).toNat ∧ UnchangedBut (· = .pc) s t

/-- R124, R125: the immediate skips compare all eight bits and end at `pc0 + 4` or `pc0 + 2`. -/
def Obligations.ImmediateSkips : Prop :=
  ∀ (s : State) (x : RegIdx) (nn : Byte),
    (EncodedAs (.seImm x nn) (encodeI 0x3 x nn) ∧ ∃ t, exec (.seImm x nn) s = .next t ∧
      t.pc = (if s.reg x = nn then s.pc + 4 else s.pc + 2) ∧ UnchangedBut (· = .pc) s t) ∧
    (EncodedAs (.sneImm x nn) (encodeI 0x4 x nn) ∧ ∃ t, exec (.sneImm x nn) s = .next t ∧
      t.pc = (if s.reg x ≠ nn then s.pc + 4 else s.pc + 2) ∧ UnchangedBut (· = .pc) s t)

/-- R126, R127: the register skips. -/
def Obligations.RegisterSkips : Prop :=
  ∀ (s : State) (x y : RegIdx),
    (EncodedAs (.seReg x y) (encodeR 0x5 x y 0) ∧ ∃ t, exec (.seReg x y) s = .next t ∧
      t.pc = (if s.reg x = s.reg y then s.pc + 4 else s.pc + 2) ∧ UnchangedBut (· = .pc) s t) ∧
    (EncodedAs (.sneReg x y) (encodeR 0x9 x y 0) ∧ ∃ t, exec (.sneReg x y) s = .next t ∧
      t.pc = (if s.reg x ≠ s.reg y then s.pc + 4 else s.pc + 2) ∧ UnchangedBut (· = .pc) s t)

/-- R121, R123: a call and the return that follows it come back to the instruction after the call, with the depth, every
register, all of memory and every slot but the one used as they were. -/
def Obligations.CallThenReturn : Prop :=
  ∀ (s : State) (nnn : Addr12), s.sp.val < 16 →
    ∃ t u, exec (.call nnn) s = .next t ∧ exec .ret t = .next u ∧ u.pc = s.pc + 2 ∧
      UnchangedBut (fun p => p = .pc ∨ ∃ j, p = .slot j ∧ j.val = s.sp.val) s u

/-! ### Register arithmetic -/

/-- R142: LD Vx, nn. -/
def Obligations.LoadImmediate : Prop :=
  ∀ (s : State) (x : RegIdx) (nn : Byte), EncodedAs (.ldImm x nn) (encodeI 0x6 x nn) ∧
    ∃ t, exec (.ldImm x nn) s = .next t ∧ t.reg x = nn ∧ t.pc = s.pc + 2 ∧
      UnchangedBut (fun p => p = .pc ∨ p = .reg x) s t

/-- R143: ADD Vx, nn wraps modulo 256 and writes no flag. -/
def Obligations.AddImmediate : Prop :=
  ∀ (s : State) (x : RegIdx) (nn : Byte), EncodedAs (.addImm x nn) (encodeI 0x7 x nn) ∧
    ∃ t, exec (.addImm x nn) s = .next t ∧ (t.reg x).toNat = ((s.reg x).toNat + nn.toNat) % 256 ∧ t.pc = s.pc + 2 ∧
      UnchangedBut (fun p => p = .pc ∨ p = .reg x) s t

/-- R144 to R147: assign, OR, AND and XOR write `V[x]` alone; VF is not written as a flag. -/
def Obligations.AssignAndLogic : Prop :=
  ∀ (s : State) (x y : RegIdx),
    (EncodedAs (.ldReg x y) (encodeR 0x8 x y 0x0) ∧ ∃ t, exec (.ldReg x y) s = .next t ∧ t.reg x = s.reg y ∧
      t.pc = s.pc + 2 ∧ UnchangedBut (fun p => p = .pc ∨ p = .reg x) s t) ∧
    (EncodedAs (.orReg x y) (encodeR 0x8 x y 0x1) ∧ ∃ t, exec (.orReg x y) s = .next t ∧
      (∀ b, (t.reg x).getLsbD b = ((s.reg x).getLsbD b || (s.reg y).getLsbD b)) ∧
      t.pc = s.pc + 2 ∧ UnchangedBut (fun p => p = .pc ∨ p = .reg x) s t) ∧
    (EncodedAs (.andReg x y) (encodeR 0x8 x y 0x2) ∧ ∃ t, exec (.andReg x y) s = .next t ∧
      (∀ b, (t.reg x).getLsbD b = ((s.reg x).getLsbD b && (s.reg y).getLsbD b)) ∧
      t.pc = s.pc + 2 ∧ UnchangedBut (fun p => p = .pc ∨ p = .reg x) s t) ∧
    (EncodedAs (.xorReg x y) (encodeR 0x8 x y 0x3) ∧ ∃ t, exec (.xorReg x y) s = .next t ∧
      (∀ b, (t.reg x).getLsbD b = ((s.reg x).getLsbD b ^^ (s.reg y).getLsbD b)) ∧
      t.pc = s.pc + 2 ∧ UnchangedBut (fun p => p = .pc ∨ p = .reg x) s t)

/-- R148: ADD Vx, Vy: the wrapped sum in `V[x]`, the carry in VF unless the result is written over it. -/
def Obligations.AddWithCarryOut : Prop :=
  ∀ (s : State) (x y : RegIdx), EncodedAs (.addReg x y) (encodeR 0x8 x y 0x4) ∧
    ∃ t, exec (.addReg x y) s = .next t ∧
      (t.reg x).toNat = ((s.reg x).toNat + (s.reg y).toNat) % 256 ∧
      (x ≠ vf → t.reg vf = if (s.reg x).toNat + (s.reg y).toNat > 255 then 1 else 0) ∧ t.pc = s.pc + 2 ∧
      UnchangedBut (fun p => p = .pc ∨ p = .reg x ∨ p = .reg vf) s t

/-- R149, R151: SUB and SUBN: the wrapped difference in `V[x]`, no-borrow in VF unless the result is written over it. -/
def Obligations.SubtractBothWays : Prop :=
  ∀ (s : State) (x y : RegIdx),
    (EncodedAs (.subReg x y) (encodeR 0x8 x y 0x5) ∧ ∃ t, exec (.subReg x y) s = .next t ∧
      ((t.reg x).toNat : Int) = (((s.reg x).toNat : Int) - ((s.reg y).toNat : Int)) % 256 ∧
      (x ≠ vf → t.reg vf = if (s.reg x).toNat ≥ (s.reg y).toNat then 1 else 0) ∧ t.pc = s.pc + 2 ∧
      UnchangedBut (fun p => p = .pc ∨ p = .reg x ∨ p = .reg vf) s t) ∧
    (EncodedAs (.subn x y) (encodeR 0x8 x y 0x7) ∧ ∃ t, exec (.subn x y) s = .next t ∧
      ((t.reg x).toNat : Int) = (((s.reg y).toNat : Int) - ((s.reg x).toNat : Int)) % 256 ∧
      (x ≠ vf → t.reg vf = if (s.reg y).toNat ≥ (s.reg x).toNat then 1 else 0) ∧ t.pc = s.pc + 2 ∧
      UnchangedBut (fun p => p = .pc ∨ p = .reg x ∨ p = .reg vf) s t)

/-- R150, R152: SHR and SHL shift the register that `SHIFT_SRC` names by one, into `V[x]`; VF takes the bit shifted out
unless the result is written over it. -/
def Obligations.ShiftsByOne : Prop :=
  ∀ (s : State) (x y : RegIdx) (v : Nat),
    v = (if s.config.shiftSrc = .vx then (s.reg x).toNat else (s.reg y).toNat) →
    (EncodedAs (.shr x y) (encodeR 0x8 x y 0x6) ∧ ∃ t, exec (.shr x y) s = .next t ∧ (t.reg x).toNat = v / 2 ∧
      (x ≠ vf → (t.reg vf).toNat = v % 2) ∧ t.pc = s.pc + 2 ∧
      UnchangedBut (fun p => p = .pc ∨ p = .reg x ∨ p = .reg vf) s t) ∧
    (EncodedAs (.shl x y) (encodeR 0x8 x y 0xE) ∧ ∃ t, exec (.shl x y) s = .next t ∧ (t.reg x).toNat = v * 2 % 256 ∧
      (x ≠ vf → (t.reg vf).toNat = v / 128) ∧ t.pc = s.pc + 2 ∧
      UnchangedBut (fun p => p = .pc ∨ p = .reg x ∨ p = .reg vf) s t)

/-- R153: RND writes the step's random byte under the mask. The count of draws that it raises is the model's own
(assumption 2). -/
def Obligations.RandomUnderTheMask : Prop :=
  ∀ (s : State) (x : RegIdx) (nn r : Byte), s.driver.rnd = some r → EncodedAs (.rnd x nn) (encodeI 0xC x nn) ∧
    ∃ t, exec (.rnd x nn) s = .next t ∧ t.reg x = r &&& nn ∧ t.pc = s.pc + 2 ∧
      t.driver = { s.driver with draws := s.driver.draws + 1 } ∧
      UnchangedBut (fun p => p = .pc ∨ p = .reg x ∨ p = .driver) s t

/-- R8, R153: in every state RND completes at the next instruction and leaves the bits outside the mask 0. Where the Step names
no byte, the byte under the mask is the free value at the count of draws, which rises by one; nothing else of the driver's side
changes (assumption 2). -/
def Obligations.FreeRandomStaysUnderTheMask : Prop :=
  ∀ (s : State) (x : RegIdx) (nn : Byte), EncodedAs (.rnd x nn) (encodeI 0xC x nn) ∧
    ∃ t, exec (.rnd x nn) s = .next t ∧ (∀ b, nn.getLsbD b = false → (t.reg x).getLsbD b = false) ∧
      (s.driver.rnd = none → t.reg x = Config.freeRandom s.driver.draws &&& nn) ∧ t.pc = s.pc + 2 ∧
      t.driver = { s.driver with draws := s.driver.draws + 1 } ∧
      UnchangedBut (fun p => p = .pc ∨ p = .reg x ∨ p = .driver) s t

/-! ### Index register and memory -/

/-- R160 to R162: the three instructions that write `I`. -/
def Obligations.IndexRegisterWrites : Prop :=
  ∀ (s : State) (x : RegIdx) (nnn : Addr12),
    (EncodedAs (.ldI nnn) (encodeA 0xA nnn) ∧ ∃ t, exec (.ldI nnn) s = .next t ∧ t.i.toNat = nnn.toNat ∧
      t.pc = s.pc + 2 ∧ UnchangedBut (fun p => p = .pc ∨ p = .index) s t) ∧
    (EncodedAs (.addI x) (encodeI 0xF x 0x1E) ∧ ∃ t, exec (.addI x) s = .next t ∧
      t.i.toNat = (s.i.toNat + (s.reg x).toNat) % 65536 ∧
      t.pc = s.pc + 2 ∧ UnchangedBut (fun p => p = .pc ∨ p = .index) s t) ∧
    (EncodedAs (.ldF x) (encodeI 0xF x 0x29) ∧ ∃ t, exec (.ldF x) s = .next t ∧ t.i.toNat = (s.reg x).toNat * 5 ∧
      t.pc = s.pc + 2 ∧ UnchangedBut (fun p => p = .pc ∨ p = .index) s t)

/-- R163: LD B stores the three decimal digits at `I`, `I + 1`, `I + 2`, or takes MemoryOutOfBounds and stores none. -/
def Obligations.StoreDecimalDigits : Prop :=
  ∀ (s : State) (x : RegIdx), EncodedAs (.ldB x) (encodeI 0xF x 0x33) ∧
    (s.indexed 2 ≤ 4095 → ∃ t, exec (.ldB x) s = .next t ∧
      (t.readByte (s.indexed 0)).toNat = (s.reg x).toNat / 100 ∧
      (t.readByte (s.indexed 1)).toNat = (s.reg x).toNat / 10 % 10 ∧
      (t.readByte (s.indexed 2)).toNat = (s.reg x).toNat % 10 ∧ t.pc = s.pc + 2 ∧
      UnchangedBut (fun p => p = .pc ∨ p = .byte (s.indexed 0) ∨ p = .byte (s.indexed 1) ∨ p = .byte (s.indexed 2)) s t) ∧
    (s.indexed 2 > 4095 → exec (.ldB x) s = s.raise .memoryOutOfBounds)

/-- R164: LD [I], Vx stores V0..Vx at ascending addresses from `I`, which stays, or takes MemoryOutOfBounds. -/
def Obligations.RegisterDump : Prop :=
  ∀ (s : State) (x : RegIdx), EncodedAs (.storeRegs x) (encodeI 0xF x 0x55) ∧
    (s.indexed x.val ≤ 4095 → ∃ t, exec (.storeRegs x) s = .next t ∧
      (∀ r : RegIdx, r.val ≤ x.val → t.readByte (s.indexed r.val) = s.reg r) ∧ t.pc = s.pc + 2 ∧
      UnchangedBut (fun p => p = .pc ∨ ∃ k, k ≤ x.val ∧ p = .byte (s.indexed k)) s t) ∧
    (s.indexed x.val > 4095 → exec (.storeRegs x) s = s.raise .memoryOutOfBounds)

/-- R165: LD Vx, [I] loads V0..Vx from ascending addresses from `I`, which stays, or takes MemoryOutOfBounds. -/
def Obligations.RegisterLoad : Prop :=
  ∀ (s : State) (x : RegIdx), EncodedAs (.loadRegs x) (encodeI 0xF x 0x65) ∧
    (s.indexed x.val ≤ 4095 → ∃ t, exec (.loadRegs x) s = .next t ∧
      (∀ r : RegIdx, r.val ≤ x.val → t.reg r = s.readByte (s.indexed r.val)) ∧ t.pc = s.pc + 2 ∧
      UnchangedBut (fun p => p = .pc ∨ ∃ r : RegIdx, r.val ≤ x.val ∧ p = .reg r) s t) ∧
    (s.indexed x.val > 4095 → exec (.loadRegs x) s = s.raise .memoryOutOfBounds)

/-- R61, R164, R165: registers dumped to memory and loaded back, whatever happened to the registers between, are restored. -/
def Obligations.DumpThenLoadRestores : Prop :=
  ∀ (s t u : State) (x : RegIdx), s.indexed x.val ≤ 4095 → exec (.storeRegs x) s = .next t →
    u.mem = t.mem → u.config = t.config → u.i = t.i →
    ∃ v, exec (.loadRegs x) u = .next v ∧ ∀ r : RegIdx, r.val ≤ x.val → v.reg r = s.reg r

/-- R55, R63 (marked there as derived): the fetch of the very next instruction sees a store: two dumped bytes executed as an instruction are V0 and
V1, V0 being the high byte. -/
def Obligations.StoredWordIsFetched : Prop :=
  ∀ (s : State) (x : RegIdx), 1 ≤ x.val → s.indexed x.val ≤ 4095 →
    ∃ t, exec (.storeRegs x) s = .next t ∧ (t.setPc s.i).fetch = some (s.reg 0 ++ s.reg 1)

/-- The canonical form of memory (R50): two memories in it that read alike at every address are the same data. -/
def Obligations.CanonicalMemoryIsDeterminedByReads : Prop :=
  ∀ (g : Glyphs) (m m' : Memory), Memory.wf g m = true → Memory.wf g m' = true →
    (∀ a, Memory.read g m a = Memory.read g m' a) → m = m'

/-! ### Display -/

/-- R171: CLS clears every cell and requests a redraw. -/
def Obligations.ClearScreen : Prop :=
  EncodedAs .cls 0x00E0 ∧
  ∀ s : State, ∃ t, exec .cls s = .next t ∧ (∀ j, t.cell j = false) ∧ t.redraw = true ∧ t.pc = s.pc + 2 ∧
    UnchangedBut (fun p => p = .pc ∨ p = .redraw ∨ ∃ j, p = .cell j) s t

/-- R172: DRW flips exactly the cells under the sprite's 1 pixels, sets VF to whether one of them was 1, and requests a
redraw; it takes MemoryOutOfBounds exactly when a row lies past memory, and then draws nothing. -/
def Obligations.DrawSprite : Prop :=
  ∀ (s : State) (x y : RegIdx) (n : Fin 16), EncodedAs (.drw x y n) (encodeR 0xD x y (BitVec.ofFin n)) ∧
    (n.val = 0 ∨ s.i.toNat + n.val - 1 ≤ 4095 → ∃ t, exec (.drw x y n) s = .next t ∧
      (∀ j, s.Covers x y n.val j → t.cell j = !s.cell j) ∧
      (∀ j, ¬ s.Covers x y n.val j → t.cell j = s.cell j) ∧
      ((∃ j, s.Covers x y n.val j ∧ s.cell j = true) → t.reg vf = 1) ∧
      (¬ (∃ j, s.Covers x y n.val j ∧ s.cell j = true) → t.reg vf = 0) ∧
      t.redraw = true ∧ t.pc = s.pc + 2 ∧
      UnchangedBut (fun p => p = .pc ∨ p = .reg vf ∨ p = .redraw ∨ ∃ j, p = .cell j) s t) ∧
    (n.val ≥ 1 → s.i.toNat + n.val - 1 > 4095 → exec (.drw x y n) s = s.raise .memoryOutOfBounds)

/-- R172 (7): drawing the same sprite twice at the same place restores every cell; the second draw reports a collision
exactly when the first one set a cell (assumption 9). -/
def Obligations.DrawingTwiceRestores : Prop :=
  ∀ (s : State) (x y : RegIdx) (n : Fin 16), x ≠ vf → y ≠ vf → (n.val = 0 ∨ s.i.toNat + n.val - 1 ≤ 4095) →
    ∃ t u, exec (.drw x y n) s = .next t ∧ exec (.drw x y n) t = .next u ∧
      (∀ j, u.cell j = s.cell j) ∧
      (u.reg vf = 1 ↔ ∃ j, s.Covers x y n.val j ∧ s.cell j = false)

/-! ### Timers and keys -/

/-- R180 to R182: the timer transfers. -/
def Obligations.TimerTransfers : Prop :=
  ∀ (s : State) (x : RegIdx),
    (EncodedAs (.ldVxDT x) (encodeI 0xF x 0x07) ∧ ∃ t, exec (.ldVxDT x) s = .next t ∧ t.reg x = s.dt ∧ t.pc = s.pc + 2 ∧
      UnchangedBut (fun p => p = .pc ∨ p = .reg x) s t) ∧
    (EncodedAs (.ldDTVx x) (encodeI 0xF x 0x15) ∧ ∃ t, exec (.ldDTVx x) s = .next t ∧ t.dt = s.reg x ∧ t.pc = s.pc + 2 ∧
      UnchangedBut (fun p => p = .pc ∨ p = .delay) s t) ∧
    (EncodedAs (.ldSTVx x) (encodeI 0xF x 0x18) ∧ ∃ t, exec (.ldSTVx x) s = .next t ∧ t.st = s.reg x ∧ t.pc = s.pc + 2 ∧
      t.tone = decide (s.reg x ≠ 0) ∧ UnchangedBut (fun p => p = .pc ∨ p = .sound) s t)

/-- R183, R184: the key skips compare the whole register with the zero-extended latch; no key latched matches none. -/
def Obligations.KeySkips : Prop :=
  ∀ (s : State) (x : RegIdx),
    (EncodedAs (.skp x) (encodeI 0xE x 0x9E) ∧ ∃ t, exec (.skp x) s = .next t ∧
      ((∃ k, s.key = some k ∧ k.toNat = (s.reg x).toNat) → t.pc = s.pc + 4) ∧
      (¬ (∃ k, s.key = some k ∧ k.toNat = (s.reg x).toNat) → t.pc = s.pc + 2) ∧ UnchangedBut (· = .pc) s t) ∧
    (EncodedAs (.sknp x) (encodeI 0xE x 0xA1) ∧ ∃ t, exec (.sknp x) s = .next t ∧
      ((∃ k, s.key = some k ∧ k.toNat = (s.reg x).toNat) → t.pc = s.pc + 2) ∧
      (¬ (∃ k, s.key = some k ∧ k.toNat = (s.reg x).toNat) → t.pc = s.pc + 4) ∧ UnchangedBut (· = .pc) s t)

/-- R185: LD Vx, K loads a latched key or leaves everything, `PC` included, for the next step; with `KEYWAIT = fault` it is
illegal at decode. That its meaning takes the same InvalidOpcode there is deduced (assumption 18). -/
def Obligations.LoadKeyOrWait : Prop :=
  ∀ (s : State) (x : RegIdx), EncodedAs (.ldVxK x) (encodeI 0xF x 0x0A) ∧
    (s.config.keyWait = .wait → ∀ k, s.key = some k → ∃ t, exec (.ldVxK x) s = .next t ∧
      (t.reg x).toNat = k.toNat ∧ t.pc = s.pc + 2 ∧ UnchangedBut (fun p => p = .pc ∨ p = .reg x) s t) ∧
    (s.config.keyWait = .wait → s.key = none → ∃ t, exec (.ldVxK x) s = .next t ∧ UnchangedBut (fun _ => False) s t) ∧
    (s.config.keyWait = .fault → decode .fault (encodeI 0xF x 0x0A) = .error .keyWaitDisabled ∧
      exec (.ldVxK x) s = s.raise .invalidOpcode)

/-! ### Events -/

/-- R213: one Tick decrements both timers, each floored at 0, and changes nothing else. -/
def Obligations.TickCountsBothTimersDown : Prop :=
  ∀ s : State, ∃ t, applyEvent .tick s = .next t ∧ t.dt.toNat = s.dt.toNat - 1 ∧ t.st.toNat = s.st.toNat - 1 ∧
    UnchangedBut (fun p => p = .delay ∨ p = .sound) s t

/-- R214: a value written to a timer lasts exactly that many Ticks. -/
def Obligations.TimerLastsItsCount : Prop :=
  ∀ (s : State) (x : RegIdx), ∃ t u, exec (.ldDTVx x) s = .next t ∧ exec (.ldSTVx x) s = .next u ∧
    ∀ n, ((State.tick^[n] t).dt = 0 ↔ (s.reg x).toNat ≤ n) ∧ ((State.tick^[n] u).tone = true ↔ n < (s.reg x).toNat)

/-- R215, R216: a press overwrites the latch, a release clears it whatever it holds. -/
def Obligations.KeyEvents : Prop :=
  ∀ s : State,
    (∀ k, ∃ t, applyEvent (.keyPress k) s = .next t ∧ t.key = some k ∧ UnchangedBut (· = .key) s t) ∧
    (∃ t, applyEvent .keyRelease s = .next t ∧ t.key = none ∧ UnchangedBut (· = .key) s t)

/-- R218: AckRedraw clears the redraw flag and changes nothing else; no other event but Reset clears it, so a Step returns it
until it is acknowledged. -/
def Obligations.AcknowledgeRedraw : Prop :=
  (∀ s : State, ∃ t, applyEvent .ackRedraw s = .next t ∧ t.redraw = false ∧ UnchangedBut (· = .redraw) s t) ∧
  ∀ (s t : State) (e : Event), e ≠ .ackRedraw → e ≠ .reset → s.redraw = true → applyEvent e s = .next t → t.redraw = true

/-- R34, R114, R200, R220: the outputs, the five codes of the fault latch, and the result of a Step. That the result is read
from the state the Step leaves is the model's choice (assumption 12). -/
def Obligations.OutputsAreReadFromTheState : Prop :=
  ∀ s : State,
    (∀ j, Frame.cell s.fbOut j = s.cell j) ∧ s.redrawOut = s.redraw ∧ (s.tone = true ↔ s.st.toNat > 0) ∧
    (s.fault = none → s.faultOut = 0) ∧
    (s.fault = some .invalidOpcode → s.faultOut = 1) ∧
    (s.fault = some .stackOverflow → s.faultOut = 2) ∧
    (s.fault = some .stackUnderflow → s.faultOut = 3) ∧
    (s.fault = some .memoryOutOfBounds → s.faultOut = 4) ∧
    (s.fault = some .romTooLarge → s.faultOut = 5) ∧
    (∀ k, s.fault = some k → s.stepResponse = .fault k) ∧
    (s.fault = none → s.stepResponse = .ok s.redraw s.tone)

/-- R243: Load writes the program verbatim from 0x200 directly after Reset; RomTooLarge above 3584 bytes; nothing while a
fault is latched; refused at any other time. The order of the tests, latch before sequence before length, and the bit that
records the sequence are deduced (assumptions 11 and 5). -/
def Obligations.LoadEvent : Prop :=
  ∀ (s : State) (rom : List Byte),
    (s.fault = none → s.driver.loadable = true → rom.length ≤ 3584 → ∃ t, applyEvent (.load rom) s = .next t ∧
      (∀ k (h : k < rom.length), t.readByte (0x200 + k) = rom[k]) ∧ t.loadResponse = none ∧
      UnchangedBut (fun p => p = .driver ∨ ∃ k, k < rom.length ∧ p = .byte (0x200 + k)) s t) ∧
    (s.fault = none → s.driver.loadable = true → rom.length > 3584 →
      applyEvent (.load rom) s = s.raise .romTooLarge) ∧
    (∀ k, s.fault = some k → applyEvent (.load rom) s = .next s) ∧
    (s.fault = none → s.driver.loadable = false → applyEvent (.load rom) s = .refused .loadOutOfSequence)

/-- R243, R208: Reset allows a Load whatever the state was, a latched fault included; a Load that succeeds and a Step of a
running machine use it up; the other events leave it. The bit is the model's record of what R243 asks (assumption 5), and Reset
keeps the rest of the driver's side (assumption 17). -/
def Obligations.LoadOnlyDirectlyAfterReset : Prop :=
  (∀ s : State, ∃ t, applyEvent .reset s = .next t ∧ t.driver = { s.driver with loadable := true }) ∧
  ∀ (s t : State) (e : Event), s.fault = none → applyEvent e s = .next t → t.fault = none →
    ((∃ rom, e = .load rom) ∨ (∃ r, e = .step r) → t.driver.loadable = false) ∧
    (e = .tick ∨ e = .keyRelease ∨ e = .ackRedraw ∨ (∃ k, e = .keyPress k) → t.driver.loadable = s.driver.loadable)

/-- R240: Reset puts every piece of state at its reset value, whatever the state was, a latched fault included. -/
def Obligations.ResetEvent : Prop :=
  ∀ s : State, ∃ t, applyEvent .reset s = .next t ∧
    (∀ r, t.reg r = 0) ∧ t.i = 0 ∧ t.pc = 0x0200 ∧ (∀ j : Fin 16, t.stack[j] = 0) ∧ t.sp.val = 0 ∧
    t.dt = 0 ∧ t.st = 0 ∧ t.key = none ∧
    (∀ a (h : a < 80), t.readByte a = s.config.glyphs[a]) ∧ (∀ a, 80 ≤ a → t.readByte a = 0) ∧
    (∀ j, t.cell j = false) ∧ t.redraw = false ∧ t.fault = none

/-! ### What cannot be observed -/

/-- R25: dead stack slots are unobservable. Two states that differ in dead slots only step alike, to states that differ in
dead slots only. -/
def Obligations.DeadStackSlotsAreUnobservable : Prop :=
  ∀ s s' : State, s' = { s with stack := s'.stack } → (∀ j : Fin 16, j.val < s.sp.val → s'.stack[j] = s.stack[j]) →
    ∀ t, step s = .next t →
      ∃ t', step s' = .next t' ∧ t' = { t with stack := t'.stack } ∧
        ∀ j : Fin 16, j.val < t.sp.val → t'.stack[j] = t.stack[j]

/-- R8, R153: an instruction other than RND ignores the random byte and everything else of the driver's side. -/
def Obligations.OnlyRndReadsTheDriver : Prop :=
  ∀ (i : Instr) (s : State) (d : Driver), (∀ x nn, i ≠ .rnd x nn) →
    ∃ t, exec i s = .next t ∧ t.driver = s.driver ∧ exec i { s with driver := d } = .next { t with driver := d }

/-- R250: a run that has ended by the suggested definition (assumption 8) stays ended under every event short of Reset. -/
def Obligations.FinishedRunStaysFinished : Prop :=
  ∀ (s t : State) (e : Event), s.finished = true → s.driver.loadable = false → e ≠ .reset →
    applyEvent e s = .next t → t.finished = true ∧ t.pc = s.pc

/-! ### The driver -/

/-- R210, R222: a step applies the event at the head of the driver's schedule, whatever it is, to the state with that event taken
off; with nothing scheduled it is a Step of a running machine, with a free byte. Holding the schedule in the state, and reading an
empty one so, are the model's choices (assumptions 2 and 4). -/
def Obligations.StepAppliesTheNextEvent : Prop :=
  ∀ s : State,
    (∀ e rest, s.driver.schedule = e :: rest → step s = applyEvent e (s.issued rest) ∧
      (s.issued rest).driver = { s.driver with schedule := rest } ∧ UnchangedBut (· = .driver) s (s.issued rest)) ∧
    (s.driver.schedule = [] → s.fault = none → step s = stepEvent none s)
end

