-- ==== Sys2Proof/Laws/Decode.lean ====
section
/-! SUPPORT. The fields of a word built in each format (spec/30_encoding.md R81, R82), a word rebuilt from its fields (R93),
and a word rebuilt from its bytes (spec/20_memory.md R55). -/

namespace Sys2Proof

/-- A word is its class nibble, its two register nibbles and its low nibble (R93). -/
theorem word_of_nibbles (w : Word) : opField w ++ xField w ++ yField w ++ nField w = w := by
  apply BitVec.eq_of_getLsbD_eq
  intro i hi
  simp only [opField, xField, yField, nField, BitVec.getLsbD_append, BitVec.getLsbD_extractLsb']
  interval_cases i <;> rfl

theorem nnField_eq (w : Word) : nnField w = yField w ++ nField w := by
  apply BitVec.eq_of_getLsbD_eq
  intro i hi
  simp only [nnField, yField, nField, BitVec.getLsbD_append, BitVec.getLsbD_extractLsb']
  interval_cases i <;> rfl

theorem nnnField_eq (w : Word) : nnnField w = xField w ++ yField w ++ nField w := by
  apply BitVec.eq_of_getLsbD_eq
  intro i hi
  simp only [nnnField, xField, yField, nField, BitVec.getLsbD_append, BitVec.getLsbD_extractLsb']
  interval_cases i <;> rfl

/-- Two bytes of a word make the word again (R55). -/
theorem wordOfBytes_hiByte_loByte (w : Word) : wordOfBytes (hiByte w) (loByte w) = w := by
  apply BitVec.eq_of_getLsbD_eq
  intro i hi
  simp only [wordOfBytes, hiByte, loByte, BitVec.getLsbD_append, BitVec.getLsbD_extractLsb']
  interval_cases i <;> rfl

section Fields

variable (a b c d : Nibble)

/-- A word of four nibbles has them as its fields. -/
theorem fields_of_nibbles :
    opField (a ++ b ++ c ++ d) = a ∧ xField (a ++ b ++ c ++ d) = b ∧ yField (a ++ b ++ c ++ d) = c ∧
      nField (a ++ b ++ c ++ d) = d := by
  refine ⟨?_, ?_, ?_, ?_⟩ <;>
  · apply BitVec.eq_of_getLsbD_eq
    intro i hi
    simp only [opField, xField, yField, nField, BitVec.getLsbD_append, BitVec.getLsbD_extractLsb']
    interval_cases i <;> rfl

end Fields

@[simp] theorem regOf_ofFin (x : RegIdx) : regOf (BitVec.ofFin x) = x := rfl

@[simp] theorem ofFin_regOf (f : Nibble) : (BitVec.ofFin (regOf f) : Nibble) = f := rfl

/-! Format R and D -/

section FormatR

variable (op : Nibble) (x y : RegIdx) (n : Nibble)

@[simp] theorem opField_encodeR : opField (encodeR op x y n) = op := (fields_of_nibbles op _ _ n).1
@[simp] theorem xField_encodeR : xField (encodeR op x y n) = BitVec.ofFin x := (fields_of_nibbles op _ _ n).2.1
@[simp] theorem yField_encodeR : yField (encodeR op x y n) = BitVec.ofFin y := (fields_of_nibbles op _ _ n).2.2.1
@[simp] theorem nField_encodeR : nField (encodeR op x y n) = n := (fields_of_nibbles op _ _ n).2.2.2

end FormatR

/-! Format I and X -/

section FormatI

variable (op : Nibble) (x : RegIdx) (nn : Byte)

@[simp] theorem opField_encodeI : opField (encodeI op x nn) = op := by
  apply BitVec.eq_of_getLsbD_eq
  intro i hi
  simp only [encodeI, opField, BitVec.getLsbD_append, BitVec.getLsbD_extractLsb']
  interval_cases i <;> rfl

@[simp] theorem xField_encodeI : xField (encodeI op x nn) = BitVec.ofFin x := by
  apply BitVec.eq_of_getLsbD_eq
  intro i hi
  simp only [encodeI, xField, BitVec.getLsbD_append, BitVec.getLsbD_extractLsb']
  interval_cases i <;> rfl

@[simp] theorem nnField_encodeI : nnField (encodeI op x nn) = nn := by
  apply BitVec.eq_of_getLsbD_eq
  intro i hi
  simp only [encodeI, nnField, BitVec.getLsbD_append, BitVec.getLsbD_extractLsb']
  interval_cases i <;> rfl

end FormatI

/-! Format A -/

@[simp] theorem opField_encodeA (op : Nibble) (nnn : Addr12) : opField (encodeA op nnn) = op := by
  apply BitVec.eq_of_getLsbD_eq
  intro i hi
  simp only [encodeA, opField, BitVec.getLsbD_append, BitVec.getLsbD_extractLsb']
  interval_cases i <;> rfl

@[simp] theorem nnnField_encodeA (op : Nibble) (nnn : Addr12) : nnnField (encodeA op nnn) = nnn := by
  apply BitVec.eq_of_getLsbD_eq
  intro i hi
  simp only [encodeA, nnnField, BitVec.getLsbD_append, BitVec.getLsbD_extractLsb']
  interval_cases i <;> rfl

/-! A word rebuilt from its fields in each format (R93) -/

theorem encodeA_fields (w : Word) : encodeA (opField w) (nnnField w) = w := by
  rw [encodeA, nnnField_eq]
  refine Eq.trans ?_ (word_of_nibbles w)
  apply BitVec.eq_of_getLsbD_eq
  intro i hi
  simp only [BitVec.getLsbD_append]
  interval_cases i <;> rfl

theorem encodeI_fields (w : Word) : encodeI (opField w) (regOf (xField w)) (nnField w) = w := by
  rw [encodeI, ofFin_regOf, nnField_eq]
  refine Eq.trans ?_ (word_of_nibbles w)
  apply BitVec.eq_of_getLsbD_eq
  intro i hi
  simp only [BitVec.getLsbD_append]
  interval_cases i <;> rfl

theorem encodeR_fields (w : Word) :
    encodeR (opField w) (regOf (xField w)) (regOf (yField w)) (nField w) = w := by
  rw [encodeR, ofFin_regOf, ofFin_regOf]
  exact word_of_nibbles w

end Sys2Proof
end

