-- ==== Sys2Proof/Laws/State.lean ====
section
/-! SUPPORT. One lemma per field per update of the state, each true by rfl, so that no later proof unfolds a record update;
and the same for the operations built of several updates. -/

namespace Sys2Proof.Machine

variable (s : State)

/-! ### `State.advance` -/

@[simp] theorem State.advance_config : (s.advance).config = s.config := rfl
@[simp] theorem State.advance_regs : (s.advance).regs = s.regs := rfl
@[simp] theorem State.advance_i : (s.advance).i = s.i := rfl
@[simp] theorem State.advance_pc : (s.advance).pc = s.pc + 2 := rfl
@[simp] theorem State.advance_stack : (s.advance).stack = s.stack := rfl
@[simp] theorem State.advance_sp : (s.advance).sp = s.sp := rfl
@[simp] theorem State.advance_dt : (s.advance).dt = s.dt := rfl
@[simp] theorem State.advance_st : (s.advance).st = s.st := rfl
@[simp] theorem State.advance_key : (s.advance).key = s.key := rfl
@[simp] theorem State.advance_mem : (s.advance).mem = s.mem := rfl
@[simp] theorem State.advance_fb : (s.advance).fb = s.fb := rfl
@[simp] theorem State.advance_redraw : (s.advance).redraw = s.redraw := rfl
@[simp] theorem State.advance_fault : (s.advance).fault = s.fault := rfl
@[simp] theorem State.advance_driver : (s.advance).driver = s.driver := rfl

/-! ### `State.setPc` -/

@[simp] theorem State.setPc_config (v : Word) : (s.setPc v).config = s.config := rfl
@[simp] theorem State.setPc_regs (v : Word) : (s.setPc v).regs = s.regs := rfl
@[simp] theorem State.setPc_i (v : Word) : (s.setPc v).i = s.i := rfl
@[simp] theorem State.setPc_pc (v : Word) : (s.setPc v).pc = v := rfl
@[simp] theorem State.setPc_stack (v : Word) : (s.setPc v).stack = s.stack := rfl
@[simp] theorem State.setPc_sp (v : Word) : (s.setPc v).sp = s.sp := rfl
@[simp] theorem State.setPc_dt (v : Word) : (s.setPc v).dt = s.dt := rfl
@[simp] theorem State.setPc_st (v : Word) : (s.setPc v).st = s.st := rfl
@[simp] theorem State.setPc_key (v : Word) : (s.setPc v).key = s.key := rfl
@[simp] theorem State.setPc_mem (v : Word) : (s.setPc v).mem = s.mem := rfl
@[simp] theorem State.setPc_fb (v : Word) : (s.setPc v).fb = s.fb := rfl
@[simp] theorem State.setPc_redraw (v : Word) : (s.setPc v).redraw = s.redraw := rfl
@[simp] theorem State.setPc_fault (v : Word) : (s.setPc v).fault = s.fault := rfl
@[simp] theorem State.setPc_driver (v : Word) : (s.setPc v).driver = s.driver := rfl

/-! ### `State.setReg` -/

@[simp] theorem State.setReg_config (r : RegIdx) (v : Byte) : (s.setReg r v).config = s.config := rfl
@[simp] theorem State.setReg_regs (r : RegIdx) (v : Byte) : (s.setReg r v).regs = s.regs.set r v := rfl
@[simp] theorem State.setReg_i (r : RegIdx) (v : Byte) : (s.setReg r v).i = s.i := rfl
@[simp] theorem State.setReg_pc (r : RegIdx) (v : Byte) : (s.setReg r v).pc = s.pc := rfl
@[simp] theorem State.setReg_stack (r : RegIdx) (v : Byte) : (s.setReg r v).stack = s.stack := rfl
@[simp] theorem State.setReg_sp (r : RegIdx) (v : Byte) : (s.setReg r v).sp = s.sp := rfl
@[simp] theorem State.setReg_dt (r : RegIdx) (v : Byte) : (s.setReg r v).dt = s.dt := rfl
@[simp] theorem State.setReg_st (r : RegIdx) (v : Byte) : (s.setReg r v).st = s.st := rfl
@[simp] theorem State.setReg_key (r : RegIdx) (v : Byte) : (s.setReg r v).key = s.key := rfl
@[simp] theorem State.setReg_mem (r : RegIdx) (v : Byte) : (s.setReg r v).mem = s.mem := rfl
@[simp] theorem State.setReg_fb (r : RegIdx) (v : Byte) : (s.setReg r v).fb = s.fb := rfl
@[simp] theorem State.setReg_redraw (r : RegIdx) (v : Byte) : (s.setReg r v).redraw = s.redraw := rfl
@[simp] theorem State.setReg_fault (r : RegIdx) (v : Byte) : (s.setReg r v).fault = s.fault := rfl
@[simp] theorem State.setReg_driver (r : RegIdx) (v : Byte) : (s.setReg r v).driver = s.driver := rfl

/-! ### `State.writeByte` -/

@[simp] theorem State.writeByte_config (a : Nat) (v : Byte) : (s.writeByte a v).config = s.config := rfl
@[simp] theorem State.writeByte_regs (a : Nat) (v : Byte) : (s.writeByte a v).regs = s.regs := rfl
@[simp] theorem State.writeByte_i (a : Nat) (v : Byte) : (s.writeByte a v).i = s.i := rfl
@[simp] theorem State.writeByte_pc (a : Nat) (v : Byte) : (s.writeByte a v).pc = s.pc := rfl
@[simp] theorem State.writeByte_stack (a : Nat) (v : Byte) : (s.writeByte a v).stack = s.stack := rfl
@[simp] theorem State.writeByte_sp (a : Nat) (v : Byte) : (s.writeByte a v).sp = s.sp := rfl
@[simp] theorem State.writeByte_dt (a : Nat) (v : Byte) : (s.writeByte a v).dt = s.dt := rfl
@[simp] theorem State.writeByte_st (a : Nat) (v : Byte) : (s.writeByte a v).st = s.st := rfl
@[simp] theorem State.writeByte_key (a : Nat) (v : Byte) : (s.writeByte a v).key = s.key := rfl
@[simp] theorem State.writeByte_mem (a : Nat) (v : Byte) : (s.writeByte a v).mem = Memory.write s.config.glyphs s.mem a v := rfl
@[simp] theorem State.writeByte_fb (a : Nat) (v : Byte) : (s.writeByte a v).fb = s.fb := rfl
@[simp] theorem State.writeByte_redraw (a : Nat) (v : Byte) : (s.writeByte a v).redraw = s.redraw := rfl
@[simp] theorem State.writeByte_fault (a : Nat) (v : Byte) : (s.writeByte a v).fault = s.fault := rfl
@[simp] theorem State.writeByte_driver (a : Nat) (v : Byte) : (s.writeByte a v).driver = s.driver := rfl

/-! ### `State.countDraw` -/

@[simp] theorem State.countDraw_config : (s.countDraw).config = s.config := rfl
@[simp] theorem State.countDraw_regs : (s.countDraw).regs = s.regs := rfl
@[simp] theorem State.countDraw_i : (s.countDraw).i = s.i := rfl
@[simp] theorem State.countDraw_pc : (s.countDraw).pc = s.pc := rfl
@[simp] theorem State.countDraw_stack : (s.countDraw).stack = s.stack := rfl
@[simp] theorem State.countDraw_sp : (s.countDraw).sp = s.sp := rfl
@[simp] theorem State.countDraw_dt : (s.countDraw).dt = s.dt := rfl
@[simp] theorem State.countDraw_st : (s.countDraw).st = s.st := rfl
@[simp] theorem State.countDraw_key : (s.countDraw).key = s.key := rfl
@[simp] theorem State.countDraw_mem : (s.countDraw).mem = s.mem := rfl
@[simp] theorem State.countDraw_fb : (s.countDraw).fb = s.fb := rfl
@[simp] theorem State.countDraw_redraw : (s.countDraw).redraw = s.redraw := rfl
@[simp] theorem State.countDraw_fault : (s.countDraw).fault = s.fault := rfl
@[simp] theorem State.countDraw_driver :
    (s.countDraw).driver = { s.driver with draws := s.driver.draws + 1 } := rfl

/-! ### `State.beginStep` -/

@[simp] theorem State.beginStep_config (r : Option Byte) : (s.beginStep r).config = s.config := rfl
@[simp] theorem State.beginStep_regs (r : Option Byte) : (s.beginStep r).regs = s.regs := rfl
@[simp] theorem State.beginStep_i (r : Option Byte) : (s.beginStep r).i = s.i := rfl
@[simp] theorem State.beginStep_pc (r : Option Byte) : (s.beginStep r).pc = s.pc := rfl
@[simp] theorem State.beginStep_stack (r : Option Byte) : (s.beginStep r).stack = s.stack := rfl
@[simp] theorem State.beginStep_sp (r : Option Byte) : (s.beginStep r).sp = s.sp := rfl
@[simp] theorem State.beginStep_dt (r : Option Byte) : (s.beginStep r).dt = s.dt := rfl
@[simp] theorem State.beginStep_st (r : Option Byte) : (s.beginStep r).st = s.st := rfl
@[simp] theorem State.beginStep_key (r : Option Byte) : (s.beginStep r).key = s.key := rfl
@[simp] theorem State.beginStep_mem (r : Option Byte) : (s.beginStep r).mem = s.mem := rfl
@[simp] theorem State.beginStep_fb (r : Option Byte) : (s.beginStep r).fb = s.fb := rfl
@[simp] theorem State.beginStep_redraw (r : Option Byte) : (s.beginStep r).redraw = s.redraw := rfl
@[simp] theorem State.beginStep_fault (r : Option Byte) : (s.beginStep r).fault = s.fault := rfl
@[simp] theorem State.beginStep_driver (r : Option Byte) : (s.beginStep r).driver = { s.driver with rnd := r, loadable := false } := rfl

/-! ### `State.issued` -/

@[simp] theorem State.issued_config (l : List Event) : (s.issued l).config = s.config := rfl
@[simp] theorem State.issued_regs (l : List Event) : (s.issued l).regs = s.regs := rfl
@[simp] theorem State.issued_i (l : List Event) : (s.issued l).i = s.i := rfl
@[simp] theorem State.issued_pc (l : List Event) : (s.issued l).pc = s.pc := rfl
@[simp] theorem State.issued_stack (l : List Event) : (s.issued l).stack = s.stack := rfl
@[simp] theorem State.issued_sp (l : List Event) : (s.issued l).sp = s.sp := rfl
@[simp] theorem State.issued_dt (l : List Event) : (s.issued l).dt = s.dt := rfl
@[simp] theorem State.issued_st (l : List Event) : (s.issued l).st = s.st := rfl
@[simp] theorem State.issued_key (l : List Event) : (s.issued l).key = s.key := rfl
@[simp] theorem State.issued_mem (l : List Event) : (s.issued l).mem = s.mem := rfl
@[simp] theorem State.issued_fb (l : List Event) : (s.issued l).fb = s.fb := rfl
@[simp] theorem State.issued_redraw (l : List Event) : (s.issued l).redraw = s.redraw := rfl
@[simp] theorem State.issued_fault (l : List Event) : (s.issued l).fault = s.fault := rfl
@[simp] theorem State.issued_driver (l : List Event) : (s.issued l).driver = { s.driver with schedule := l } := rfl

/-! ### `State.tick` -/

@[simp] theorem State.tick_config : (s.tick).config = s.config := rfl
@[simp] theorem State.tick_regs : (s.tick).regs = s.regs := rfl
@[simp] theorem State.tick_i : (s.tick).i = s.i := rfl
@[simp] theorem State.tick_pc : (s.tick).pc = s.pc := rfl
@[simp] theorem State.tick_stack : (s.tick).stack = s.stack := rfl
@[simp] theorem State.tick_sp : (s.tick).sp = s.sp := rfl
@[simp] theorem State.tick_dt : (s.tick).dt = countDown s.dt := rfl
@[simp] theorem State.tick_st : (s.tick).st = countDown s.st := rfl
@[simp] theorem State.tick_key : (s.tick).key = s.key := rfl
@[simp] theorem State.tick_mem : (s.tick).mem = s.mem := rfl
@[simp] theorem State.tick_fb : (s.tick).fb = s.fb := rfl
@[simp] theorem State.tick_redraw : (s.tick).redraw = s.redraw := rfl
@[simp] theorem State.tick_fault : (s.tick).fault = s.fault := rfl
@[simp] theorem State.tick_driver : (s.tick).driver = s.driver := rfl

/-! ### Reading a register after a write (R21) -/

@[simp] theorem State.reg_setReg_same (r : RegIdx) (v : Byte) : (s.setReg r v).reg r = v := by
  simp [State.reg, State.setReg]

theorem State.reg_setReg_ne {r q : RegIdx} (h : q ≠ r) (v : Byte) : (s.setReg r v).reg q = s.reg q := by
  have h' : r.val ≠ q.val := fun e => h (Fin.ext e.symm)
  simp [State.reg, State.setReg, h']

theorem State.reg_setReg (r q : RegIdx) (v : Byte) : (s.setReg r v).reg q = if q = r then v else s.reg q := by
  split
  · subst q; exact s.reg_setReg_same r v
  · exact s.reg_setReg_ne ‹_› v

/-- A register reads the register file alone. -/
theorem State.reg_of_regs {s t : State} (h : t.regs = s.regs) (r : RegIdx) : t.reg r = s.reg r := by
  simp [State.reg, h]

/-- A memory byte reads memory and the glyph table alone. -/
theorem State.readByte_of_mem {s t : State} (hm : t.mem = s.mem) (hc : t.config = s.config) (a : Nat) :
    t.readByte a = s.readByte a := by
  simp [State.readByte, hm, hc]

@[simp] theorem State.advance_reg (r : RegIdx) : s.advance.reg r = s.reg r := rfl
@[simp] theorem State.setPc_reg (v : Word) (r : RegIdx) : (s.setPc v).reg r = s.reg r := rfl
@[simp] theorem State.countDraw_reg (r : RegIdx) : s.countDraw.reg r = s.reg r := rfl
@[simp] theorem State.advance_readByte (a : Nat) : s.advance.readByte a = s.readByte a := rfl
@[simp] theorem State.setPc_readByte (v : Word) (a : Nat) : (s.setPc v).readByte a = s.readByte a := rfl
@[simp] theorem State.setReg_readByte (r : RegIdx) (v : Byte) (a : Nat) :
    (s.setReg r v).readByte a = s.readByte a := rfl
@[simp] theorem State.countDraw_readByte (a : Nat) : s.countDraw.readByte a = s.readByte a := rfl

/-! ### `State.skipIf` (R120) -/

theorem State.skipIf_eq (c : Bool) : s.skipIf c = s.setPc (if c then s.pc + 2 else s.pc) := by
  cases c <;> rfl

/-! ### `State.writeFlagThenResult` (R141) -/

theorem State.reg_writeFlagThenResult (x q : RegIdx) (f : Bool) (v : Byte) :
    (s.writeFlagThenResult x f v).reg q = if q = x then v else if q = vf then flagByte f else s.reg q := by
  simp only [State.writeFlagThenResult, State.reg_setReg]

/-- Only the register file changes. -/
theorem State.writeFlagThenResult_eq (x : RegIdx) (f : Bool) (v : Byte) :
    s.writeFlagThenResult x f v = { s with regs := (s.regs.set vf (flagByte f)).set x v } := rfl

@[simp] theorem State.writeFlagThenResult_config (x : RegIdx) (f : Bool) (v : Byte) :
    (s.writeFlagThenResult x f v).config = s.config := rfl
@[simp] theorem State.writeFlagThenResult_i (x : RegIdx) (f : Bool) (v : Byte) :
    (s.writeFlagThenResult x f v).i = s.i := rfl
@[simp] theorem State.writeFlagThenResult_pc (x : RegIdx) (f : Bool) (v : Byte) :
    (s.writeFlagThenResult x f v).pc = s.pc := rfl
@[simp] theorem State.writeFlagThenResult_stack (x : RegIdx) (f : Bool) (v : Byte) :
    (s.writeFlagThenResult x f v).stack = s.stack := rfl
@[simp] theorem State.writeFlagThenResult_sp (x : RegIdx) (f : Bool) (v : Byte) :
    (s.writeFlagThenResult x f v).sp = s.sp := rfl
@[simp] theorem State.writeFlagThenResult_dt (x : RegIdx) (f : Bool) (v : Byte) :
    (s.writeFlagThenResult x f v).dt = s.dt := rfl
@[simp] theorem State.writeFlagThenResult_st (x : RegIdx) (f : Bool) (v : Byte) :
    (s.writeFlagThenResult x f v).st = s.st := rfl
@[simp] theorem State.writeFlagThenResult_key (x : RegIdx) (f : Bool) (v : Byte) :
    (s.writeFlagThenResult x f v).key = s.key := rfl
@[simp] theorem State.writeFlagThenResult_mem (x : RegIdx) (f : Bool) (v : Byte) :
    (s.writeFlagThenResult x f v).mem = s.mem := rfl
@[simp] theorem State.writeFlagThenResult_fb (x : RegIdx) (f : Bool) (v : Byte) :
    (s.writeFlagThenResult x f v).fb = s.fb := rfl
@[simp] theorem State.writeFlagThenResult_redraw (x : RegIdx) (f : Bool) (v : Byte) :
    (s.writeFlagThenResult x f v).redraw = s.redraw := rfl
@[simp] theorem State.writeFlagThenResult_fault (x : RegIdx) (f : Bool) (v : Byte) :
    (s.writeFlagThenResult x f v).fault = s.fault := rfl
@[simp] theorem State.writeFlagThenResult_driver (x : RegIdx) (f : Bool) (v : Byte) :
    (s.writeFlagThenResult x f v).driver = s.driver := rfl

/-! ### `State.push` and `State.pop` (R121, R123) -/

theorem State.push_eq_none_iff (v : Word) : s.push v = none ↔ s.sp.val = 16 := by
  have := s.sp.isLt
  unfold State.push
  split <;> simp <;> omega

theorem State.pop_eq_none_iff : s.pop = none ↔ s.sp.val = 0 := by
  unfold State.pop
  split <;> simp [*]

/-- Everything a push can do. -/
theorem State.push_some {s t : State} {v : Word} (h : s.push v = some t) :
    ∃ hlt : s.sp.val < 16, t.sp.val = s.sp.val + 1 ∧ t = { s with stack := s.stack.set s.sp.val v, sp := t.sp } := by
  unfold State.push at h
  split at h
  · cases h; exact ⟨‹_›, rfl, rfl⟩
  · cases h

/-- Everything a pop can do. -/
theorem State.pop_some {s t : State} {v : Word} (h : s.pop = some (v, t)) :
    s.sp.val ≠ 0 ∧ t.sp.val = s.sp.val - 1 ∧ v = s.stack[s.sp.val - 1]'(by omega) ∧ t = { s with sp := t.sp } := by
  unfold State.pop at h
  split at h
  · cases h
  · cases h; exact ⟨‹_›, rfl, rfl, rfl⟩

end Sys2Proof.Machine
end

