-- ==== Sys2Proof/Laws/Memory.lean ====
section
/-! SUPPORT. The laws of memory: a read after a write, the canonical form that every write keeps, and its uniqueness. -/

namespace Sys2Proof.Machine

/-! ### Reads after writes -/

theorem Memory.lookup_insert (m : Memory) (a b : Nat) (v : Byte) :
    Memory.lookup (Memory.insert m a v) b = if b = a then some v else Memory.lookup m b := by
  induction m with
  | nil => simp [Memory.insert, Memory.lookup, eq_comm]
  | cons c m ih =>
    obtain ⟨c, u⟩ := c
    unfold Memory.insert
    split
    · simp [Memory.lookup, eq_comm]
    · split
      · subst a; simp only [Memory.lookup, eq_comm (a := b)]; split <;> rfl
      · simp only [Memory.lookup, ih]
        split
        · subst b; split <;> simp_all
        · rfl

theorem Memory.lookup_erase (m : Memory) (a b : Nat) :
    Memory.lookup (Memory.erase m a) b = if b = a then none else Memory.lookup m b := by
  induction m with
  | nil => simp [Memory.erase, Memory.lookup]
  | cons c m ih =>
    obtain ⟨c, u⟩ := c
    unfold Memory.erase
    split
    · subst a; rw [ih]; simp only [Memory.lookup, eq_comm (a := b)]; split <;> rfl
    · simp only [Memory.lookup, ih]
      split
      · subst b; split <;> simp_all
      · rfl

/-- A read gives what the latest write to its address gave, and a write leaves every other address alone (R53, R61). -/
theorem Memory.read_write (g : Glyphs) (m : Memory) (a b : Nat) (v : Byte) :
    Memory.read g (Memory.write g m a v) b = if b = a then v else Memory.read g m b := by
  unfold Memory.read Memory.write
  split
  · rw [Memory.lookup_erase]; split <;> simp_all
  · rw [Memory.lookup_insert]; split <;> simp

theorem State.readByte_writeByte (s : State) (a b : Nat) (v : Byte) :
    (s.writeByte a v).readByte b = if b = a then v else s.readByte b :=
  Memory.read_write _ _ _ _ _

/-- The bound of R52 and R53. -/
theorem inMemory_iff (last : Nat) : inMemory last = true ↔ last ≤ 4095 := by simp [inMemory]

/-- The effective address of R166. -/
theorem State.indexed_eq (s : State) (k : Nat) : s.indexed k = s.i.toNat + k := rfl

/-- Writing a byte string changes memory alone. -/
theorem State.writeBytes_eq (s : State) (a : Nat) (vs : List Byte) :
    s.writeBytes a vs = { s with mem := (s.writeBytes a vs).mem } := by
  induction vs generalizing s a with
  | nil => rfl
  | cons v vs ih => rw [State.writeBytes, ih]; rfl

@[simp] theorem State.writeBytes_config (s : State) (a : Nat) (vs : List Byte) :
    (s.writeBytes a vs).config = s.config := by rw [s.writeBytes_eq]

@[simp] theorem State.writeBytes_reg (s : State) (a : Nat) (vs : List Byte) (r : RegIdx) :
    (s.writeBytes a vs).reg r = s.reg r := by rw [s.writeBytes_eq]; rfl

@[simp] theorem State.writeBytes_regs (s : State) (a : Nat) (vs : List Byte) :
    (s.writeBytes a vs).regs = s.regs := by rw [s.writeBytes_eq]

@[simp] theorem State.writeBytes_i (s : State) (a : Nat) (vs : List Byte) :
    (s.writeBytes a vs).i = s.i := by rw [s.writeBytes_eq]

@[simp] theorem State.writeBytes_pc (s : State) (a : Nat) (vs : List Byte) :
    (s.writeBytes a vs).pc = s.pc := by rw [s.writeBytes_eq]

@[simp] theorem State.writeBytes_stack (s : State) (a : Nat) (vs : List Byte) :
    (s.writeBytes a vs).stack = s.stack := by rw [s.writeBytes_eq]

@[simp] theorem State.writeBytes_sp (s : State) (a : Nat) (vs : List Byte) :
    (s.writeBytes a vs).sp = s.sp := by rw [s.writeBytes_eq]

@[simp] theorem State.writeBytes_dt (s : State) (a : Nat) (vs : List Byte) :
    (s.writeBytes a vs).dt = s.dt := by rw [s.writeBytes_eq]

@[simp] theorem State.writeBytes_st (s : State) (a : Nat) (vs : List Byte) :
    (s.writeBytes a vs).st = s.st := by rw [s.writeBytes_eq]

@[simp] theorem State.writeBytes_key (s : State) (a : Nat) (vs : List Byte) :
    (s.writeBytes a vs).key = s.key := by rw [s.writeBytes_eq]

@[simp] theorem State.writeBytes_fb (s : State) (a : Nat) (vs : List Byte) :
    (s.writeBytes a vs).fb = s.fb := by rw [s.writeBytes_eq]

@[simp] theorem State.writeBytes_redraw (s : State) (a : Nat) (vs : List Byte) :
    (s.writeBytes a vs).redraw = s.redraw := by rw [s.writeBytes_eq]

@[simp] theorem State.writeBytes_fault (s : State) (a : Nat) (vs : List Byte) :
    (s.writeBytes a vs).fault = s.fault := by rw [s.writeBytes_eq]

@[simp] theorem State.writeBytes_driver (s : State) (a : Nat) (vs : List Byte) :
    (s.writeBytes a vs).driver = s.driver := by rw [s.writeBytes_eq]

/-- A read after writing a byte string at ascending addresses. -/
theorem State.readByte_writeBytes (s : State) (a b : Nat) (vs : List Byte) :
    (s.writeBytes a vs).readByte b =
      if h : a ≤ b ∧ b < a + vs.length then vs[b - a] else s.readByte b := by
  induction vs generalizing s a with
  | nil => simp [State.writeBytes]
  | cons v vs ih =>
    rw [State.writeBytes, ih]
    by_cases hba : b = a
    · subst b; simp [State.readByte_writeByte]
    · by_cases h : a + 1 ≤ b ∧ b < a + 1 + vs.length
      · have h' : a ≤ b ∧ b < a + (v :: vs).length := by simp; omega
        have hidx : b - a = b - (a + 1) + 1 := by omega
        rw [dif_pos h, dif_pos h']
        simp only [hidx, List.getElem_cons_succ]
      · have h' : ¬ (a ≤ b ∧ b < a + (v :: vs).length) := by simp; omega
        rw [dif_neg h, dif_neg h', State.readByte_writeByte, if_neg hba]

/-! ### The canonical form -/

theorem Memory.wfFrom_weaken {g : Glyphs} {lo lo' : Nat} {m : Memory} (hlo : lo' ≤ lo)
    (h : Memory.wfFrom g lo m = true) : Memory.wfFrom g lo' m = true := by
  cases m with
  | nil => rfl
  | cons c m =>
    simp only [Memory.wfFrom, Bool.and_eq_true, decide_eq_true_eq] at h ⊢
    exact ⟨⟨⟨by omega, h.1.1.2⟩, h.1.2⟩, h.2⟩

theorem Memory.wfFrom_insert {g : Glyphs} {lo a : Nat} {v : Byte} {m : Memory} (hlo : lo ≤ a) (ha : a < memSize)
    (hv : v ≠ Memory.unlisted g a) (h : Memory.wfFrom g lo m = true) :
    Memory.wfFrom g lo (Memory.insert m a v) = true := by
  induction m generalizing lo with
  | nil => simp [Memory.insert, Memory.wfFrom, hlo, ha, hv]
  | cons c m ih =>
    obtain ⟨b, u⟩ := c
    simp only [Memory.wfFrom, Bool.and_eq_true, decide_eq_true_eq, bne_iff_ne, ne_eq] at h
    obtain ⟨⟨⟨h1, h2⟩, h3⟩, h4⟩ := h
    unfold Memory.insert
    split
    · simp only [Memory.wfFrom, Bool.and_eq_true, decide_eq_true_eq, bne_iff_ne, ne_eq]
      exact ⟨⟨⟨hlo, ha⟩, hv⟩, ⟨⟨by omega, h2⟩, h3⟩, h4⟩
    · split
      · subst b
        simp only [Memory.wfFrom, Bool.and_eq_true, decide_eq_true_eq, bne_iff_ne, ne_eq]
        exact ⟨⟨⟨hlo, ha⟩, hv⟩, h4⟩
      · simp only [Memory.wfFrom, Bool.and_eq_true, decide_eq_true_eq, bne_iff_ne, ne_eq]
        exact ⟨⟨⟨h1, h2⟩, h3⟩, ih (by omega) h4⟩

theorem Memory.wfFrom_erase {g : Glyphs} {lo a : Nat} {m : Memory} (h : Memory.wfFrom g lo m = true) :
    Memory.wfFrom g lo (Memory.erase m a) = true := by
  induction m generalizing lo with
  | nil => rfl
  | cons c m ih =>
    obtain ⟨b, u⟩ := c
    simp only [Memory.wfFrom, Bool.and_eq_true, decide_eq_true_eq] at h
    unfold Memory.erase
    split
    · exact Memory.wfFrom_weaken (by omega) (ih h.2)
    · simp only [Memory.wfFrom, Bool.and_eq_true, decide_eq_true_eq]
      exact ⟨h.1, ih h.2⟩

/-- Every write inside memory keeps the canonical form. -/
theorem Memory.wf_write {g : Glyphs} {m : Memory} {a : Nat} (v : Byte) (ha : a < memSize) (h : Memory.wf g m = true) :
    Memory.wf g (Memory.write g m a v) = true := by
  unfold Memory.write
  split
  · exact Memory.wfFrom_erase h
  · exact Memory.wfFrom_insert (Nat.zero_le a) ha ‹_› h

theorem State.writeBytes_wf {s : State} {a : Nat} {vs : List Byte} (hb : a + vs.length ≤ memSize)
    (h : Memory.wf s.config.glyphs s.mem = true) :
    Memory.wf s.config.glyphs (s.writeBytes a vs).mem = true := by
  induction vs generalizing s a with
  | nil => exact h
  | cons v vs ih =>
    simp only [List.length_cons] at hb
    exact ih (s := s.writeByte a v) (by omega) (Memory.wf_write v (by omega) h)

/-- The memory of reset is in canonical form. -/
theorem Memory.wf_reset (g : Glyphs) : Memory.wf g State.reset.mem = true := rfl

theorem Memory.lookup_eq_none_of_lt {g : Glyphs} {lo a : Nat} {m : Memory} (h : Memory.wfFrom g lo m = true)
    (ha : a < lo) : Memory.lookup m a = none := by
  induction m generalizing lo with
  | nil => rfl
  | cons c m ih =>
    obtain ⟨b, u⟩ := c
    simp only [Memory.wfFrom, Bool.and_eq_true, decide_eq_true_eq] at h
    rw [Memory.lookup, if_neg (by omega)]
    exact ih h.2 (by omega)

end Sys2Proof.Machine
end

