-- ==== Sys2Proof/Laws/Registers.lean ====
section
/-! SUPPORT. What the register transfers of several registers do (spec/43_index_memory.md R164, R165). -/

namespace Sys2Proof.Machine

/-- V0..Vx are the registers numbered up to x. -/
theorem mem_regsUpTo (x r : RegIdx) : r ∈ regsUpTo x ↔ r.val ≤ x.val := by
  revert x r; decide

theorem length_regsUpTo (x : RegIdx) : (regsUpTo x).length = x.val + 1 := by
  revert x; decide

/-- The register at place k of V0..Vx is Vk. -/
theorem getElem_regsUpTo (x : RegIdx) (k : Nat) (h : k < (regsUpTo x).length) :
    ((regsUpTo x)[k]).val = k := by
  have all : ∀ x : RegIdx, ∀ k : Fin 16, ∀ h : k.val < (regsUpTo x).length, ((regsUpTo x)[k.val]).val = k.val := by
    decide
  have hk : k < 16 := by have := length_regsUpTo x; have := x.isLt; omega
  exact all x ⟨k, hk⟩ h

/-- Loading registers changes the register file alone. -/
theorem loadRegsFrom_eq (s : State) (rs : List RegIdx) :
    loadRegsFrom s rs = { s with regs := (loadRegsFrom s rs).regs } := by
  induction rs generalizing s with
  | nil => rfl
  | cons r rs ih =>
    have h := ih (s.setReg r (s.readByte (s.indexed r.val)))
    simp only [loadRegsFrom, List.foldl_cons] at h ⊢
    rw [h]; rfl

@[simp] theorem loadRegsFrom_config (s : State) (rs : List RegIdx) :
    (loadRegsFrom s rs).config = s.config := by rw [loadRegsFrom_eq]

@[simp] theorem loadRegsFrom_i (s : State) (rs : List RegIdx) :
    (loadRegsFrom s rs).i = s.i := by rw [loadRegsFrom_eq]

@[simp] theorem loadRegsFrom_pc (s : State) (rs : List RegIdx) :
    (loadRegsFrom s rs).pc = s.pc := by rw [loadRegsFrom_eq]

@[simp] theorem loadRegsFrom_stack (s : State) (rs : List RegIdx) :
    (loadRegsFrom s rs).stack = s.stack := by rw [loadRegsFrom_eq]

@[simp] theorem loadRegsFrom_sp (s : State) (rs : List RegIdx) :
    (loadRegsFrom s rs).sp = s.sp := by rw [loadRegsFrom_eq]

@[simp] theorem loadRegsFrom_dt (s : State) (rs : List RegIdx) :
    (loadRegsFrom s rs).dt = s.dt := by rw [loadRegsFrom_eq]

@[simp] theorem loadRegsFrom_st (s : State) (rs : List RegIdx) :
    (loadRegsFrom s rs).st = s.st := by rw [loadRegsFrom_eq]

@[simp] theorem loadRegsFrom_key (s : State) (rs : List RegIdx) :
    (loadRegsFrom s rs).key = s.key := by rw [loadRegsFrom_eq]

@[simp] theorem loadRegsFrom_mem (s : State) (rs : List RegIdx) :
    (loadRegsFrom s rs).mem = s.mem := by rw [loadRegsFrom_eq]

@[simp] theorem loadRegsFrom_fb (s : State) (rs : List RegIdx) :
    (loadRegsFrom s rs).fb = s.fb := by rw [loadRegsFrom_eq]

@[simp] theorem loadRegsFrom_redraw (s : State) (rs : List RegIdx) :
    (loadRegsFrom s rs).redraw = s.redraw := by rw [loadRegsFrom_eq]

@[simp] theorem loadRegsFrom_fault (s : State) (rs : List RegIdx) :
    (loadRegsFrom s rs).fault = s.fault := by rw [loadRegsFrom_eq]

@[simp] theorem loadRegsFrom_driver (s : State) (rs : List RegIdx) :
    (loadRegsFrom s rs).driver = s.driver := by rw [loadRegsFrom_eq]

/-- Each loaded register holds the byte at its own offset, and every other register what it held. -/
theorem loadRegsFrom_reg (s : State) (rs : List RegIdx) (q : RegIdx) :
    (loadRegsFrom s rs).reg q = if q ∈ rs then s.readByte (s.indexed q.val) else s.reg q := by
  induction rs generalizing s with
  | nil => simp [loadRegsFrom]
  | cons r rs ih =>
    have h := ih (s.setReg r (s.readByte (s.indexed r.val)))
    simp only [loadRegsFrom, List.foldl_cons] at h ⊢
    rw [h]
    have hi : (s.setReg r (s.readByte (s.indexed r.val))).indexed q.val = s.indexed q.val := rfl
    rw [State.setReg_readByte, hi, State.reg_setReg]
    by_cases hq : q = r
    · subst q; simp
    · simp [hq]

end Sys2Proof.Machine
end

