-- ==== Sys2Proof/Laws/Display.lean ====
section
/-! SUPPORT. The laws of the display buffer: toggling one cell, toggling a list of cells, and the cells of a sprite
(spec/44_display.md R170, R172). -/

namespace Sys2Proof.Machine

/-- Toggling a cell flips it and leaves every other cell alone. -/
theorem Frame.cell_toggle (fb : Frame) (j k : Nat) :
    Frame.cell (Frame.toggle fb j) k = (Frame.cell fb k ^^ decide (k = j ∧ k < 2048)) := by
  unfold Frame.cell Frame.toggle
  by_cases hj : j < 2048
  · by_cases hk : k < 2048
    · simp only [hj, hk, dite_true, and_true]
      by_cases hr : j / 64 = k / 64
      · have hmod : k % 64 < 64 := Nat.mod_lt _ (by decide)
        have hjk : (k = j) ↔ (k % 64 = j % 64) := by omega
        simp only [hr, Vector.getElem_set_self, BitVec.getLsbD_xor, BitVec.getLsbD_shiftLeft, hmod, decide_true,
          Bool.true_and, hjk]
        congr 1
        by_cases h1 : k % 64 < j % 64
        · have h2 : ¬ k % 64 = j % 64 := by omega
          simp [h1, h2]
        · by_cases h2 : k % 64 = j % 64
          · simp [h2]
          · have h3 : k % 64 - j % 64 ≠ 0 := by omega
            simp [h1, h2, h3]
      · have hne : ¬ k = j := fun e => hr (by rw [e])
        rw [Vector.getElem_set_ne _ _ hr]
        simp [hne]
    · simp [hk]
  · have : ¬ (k = j ∧ k < 2048) := by omega
    simp [hj, this]

theorem Frame.cell_clear (j : Nat) : Frame.cell Frame.clear j = false := by
  unfold Frame.cell Frame.clear
  split
  · simp
  · rfl

/-- No cell has a number above 2047. -/
theorem Frame.cell_of_le {fb : Frame} {j : Nat} (h : 2048 ≤ j) : Frame.cell fb j = false := by
  simp [Frame.cell, Nat.not_lt.mpr h]

/-- Two buffers with the same cells are the same buffer. -/
theorem Frame.ext_cell {a b : Frame} (h : ∀ j, Frame.cell a j = Frame.cell b j) : a = b := by
  apply Vector.ext
  intro r hr
  apply BitVec.eq_of_getLsbD_eq
  intro c hc
  have hj := h (r * 64 + c)
  have hlt : r * 64 + c < 2048 := by omega
  have hdiv : (r * 64 + c) / 64 = r := by omega
  have hmod : (r * 64 + c) % 64 = c := by omega
  simpa [Frame.cell, hlt, hdiv, hmod] using hj

/-- Toggling distinct cells: each of them flips, every other cell stays, and there is a collision exactly when one of them
was 1 before. -/
theorem drawCells_spec (fb : Frame) (cells : List Nat) (hn : cells.Nodup) (hb : ∀ j ∈ cells, j < 2048) :
    (∀ k, Frame.cell (drawCells fb cells).1 k = (Frame.cell fb k ^^ decide (k ∈ cells))) ∧
    ((drawCells fb cells).2 = true ↔ ∃ j ∈ cells, Frame.cell fb j = true) := by
  suffices H : ∀ (acc : Frame × Bool),
      (∀ k, Frame.cell (cells.foldl drawCell acc).1 k = (Frame.cell acc.1 k ^^ decide (k ∈ cells))) ∧
      ((cells.foldl drawCell acc).2 = true ↔ acc.2 = true ∨ ∃ j ∈ cells, Frame.cell acc.1 j = true) by
    simpa [drawCells] using H (fb, false)
  induction cells with
  | nil => intro acc; simp
  | cons j cells ih =>
    intro acc
    obtain ⟨hj, hn⟩ := List.nodup_cons.mp hn
    have hjb : j < 2048 := hb j (by simp)
    obtain ⟨ih1, ih2⟩ := ih hn (fun k hk => hb k (by simp [hk])) (drawCell acc j)
    refine ⟨fun k => ?_, ?_⟩
    · rw [List.foldl_cons, ih1, drawCell, Frame.cell_toggle]
      by_cases hk : k = j
      · subst k; simp [hj, hjb]
      · simp [hk]
    · rw [List.foldl_cons, ih2]
      simp only [drawCell, Bool.or_eq_true, List.mem_cons, exists_eq_or_imp, or_assoc]
      refine or_congr_right (or_congr_right ?_)
      constructor
      · rintro ⟨k, hk, hc⟩
        have hkj : k ≠ j := fun e => hj (e ▸ hk)
        rw [Frame.cell_toggle] at hc
        exact ⟨k, hk, by simpa [hkj] using hc⟩
      · rintro ⟨k, hk, hc⟩
        have hkj : k ≠ j := fun e => hj (e ▸ hk)
        exact ⟨k, hk, by rw [Frame.cell_toggle]; simpa [hkj] using hc⟩

/-! ### The cells of a sprite -/

theorem cellAt_wrap (px py j : Nat) :
    cellAt .wrap px py = some j ↔ j = py % 32 * 64 + px % 64 := by
  simp only [cellAt, fbHeight, fbWidth, Option.some.injEq, eq_comm]

theorem cellAt_clip (px py j : Nat) :
    cellAt .clip px py = some j ↔ px < 64 ∧ py < 32 ∧ j = py * 64 + px := by
  have h : cellAt .clip px py = if px < 64 ∧ py < 32 then some (py * 64 + px) else none := rfl
  rw [h, Option.ite_none_right_eq_some, Option.some.injEq, and_assoc, eq_comm (a := j)]

/-- Every cell of the buffer the edge rule answers is one of the 2048. -/
theorem cellAt_lt {edge : SpriteEdge} {px py j : Nat} (h : cellAt edge px py = some j) : j < 2048 := by
  cases edge with
  | wrap =>
    rw [cellAt_wrap] at h
    omega
  | clip =>
    rw [cellAt_clip] at h
    omega

theorem mem_rowCells {edge : SpriteEdge} {vx py j : Nat} {b : Byte} :
    j ∈ rowCells edge vx py b ↔ ∃ c, c < 8 ∧ b.getLsbD (7 - c) = true ∧ cellAt edge (vx + c) py = some j := by
  have h8 : ∀ c, c ∈ [0, 1, 2, 3, 4, 5, 6, 7] ↔ c < 8 := by intro c; simp; omega
  simp only [rowCells, List.mem_filterMap, h8]
  refine exists_congr fun c => and_congr_right fun _ => ?_
  split <;> simp [*]

theorem mem_spriteCells {edge : SpriteEdge} {vx vy j : Nat} {rows : List Byte} :
    j ∈ spriteCells edge vx vy rows ↔
      ∃ r, ∃ h : r < rows.length, ∃ c, c < 8 ∧ (rows[r]).getLsbD (7 - c) = true ∧
        cellAt edge (vx + c) (vy + r) = some j := by
  induction rows generalizing vy with
  | nil => simp [spriteCells]
  | cons b rows ih =>
    rw [spriteCells, List.mem_append, mem_rowCells, ih]
    constructor
    · rintro (⟨c, hc, hb, hj⟩ | ⟨r, hr, c, hc, hb, hj⟩)
      · exact ⟨0, by simp, c, hc, by simpa using hb, by simpa using hj⟩
      · exact ⟨r + 1, by simpa using hr, c, hc, by simpa using hb, by rw [← hj]; congr 1; omega⟩
    · rintro ⟨r, hr, c, hc, hb, hj⟩
      cases r with
      | zero => exact .inl ⟨c, hc, by simpa using hb, by simpa using hj⟩
      | succ r =>
        exact .inr ⟨r, by simpa using hr, c, hc, by simpa using hb, by rw [← hj]; congr 1; omega⟩

/-- Two pixels of one sprite under one cell have the same offsets (R172 (4)). -/
theorem cellAt_inj {edge : SpriteEdge} {vx vy j r r' c c' : Nat} (hr : r < 32) (hr' : r' < 32) (hc : c < 8)
    (hc' : c' < 8) (h : cellAt edge (vx + c) (vy + r) = some j) (h' : cellAt edge (vx + c') (vy + r') = some j) :
    r = r' ∧ c = c' := by
  cases edge with
  | wrap =>
    rw [cellAt_wrap] at h h'
    omega
  | clip =>
    rw [cellAt_clip] at h h'
    omega

theorem rowCells_nodup (edge : SpriteEdge) (vx py : Nat) (b : Byte) : (rowCells edge vx py b).Nodup := by
  have hpair : [0, 1, 2, 3, 4, 5, 6, 7].Pairwise fun a b : Nat => a < b ∧ b < 8 := by decide
  refine List.Pairwise.filterMap _ ?_ hpair
  rintro c c' ⟨hlt, h8⟩ j hj k hk rfl
  split at hj
  · split at hk
    · have := (cellAt_inj (r := 0) (r' := 0) (vy := py) (by decide) (by decide) (by omega) h8 hj hk).2
      omega
    · cases hk
  · cases hj

/-- No cell is toggled twice by one sprite of at most 32 rows (R172 (4)). -/
theorem spriteCells_nodup (edge : SpriteEdge) (vx vy : Nat) (rows : List Byte) (h : rows.length ≤ 32) :
    (spriteCells edge vx vy rows).Nodup := by
  induction rows generalizing vy with
  | nil => exact List.nodup_nil
  | cons b rows ih =>
    simp only [List.length_cons] at h
    refine List.Nodup.append (rowCells_nodup _ _ _ _) (ih _ (by omega)) ?_
    intro j hj hj'
    obtain ⟨c, hc, -, h1⟩ := mem_rowCells.mp hj
    obtain ⟨r, hr, c', hc', -, h2⟩ := mem_spriteCells.mp hj'
    have h2' : cellAt edge (vx + c') (vy + (r + 1)) = some j := by rw [← h2]; congr 1; omega
    have := (cellAt_inj (r := 0) (by decide) (by omega) hc hc' h1 h2').1
    omega

/-- The bound on a sprite's addresses (R172). -/
theorem State.spriteInMemory_iff (s : State) (n : Nat) :
    s.spriteInMemory n = true ↔ n = 0 ∨ s.i.toNat + n - 1 ≤ 4095 := by
  rw [State.spriteInMemory, Bool.or_eq_true, beq_iff_eq, inMemory_iff, State.indexed_eq]
  omega

theorem spriteCells_lt {edge : SpriteEdge} {vx vy j : Nat} {rows : List Byte} (h : j ∈ spriteCells edge vx vy rows) :
    j < 2048 := by
  obtain ⟨_, _, _, _, _, hj⟩ := mem_spriteCells.mp h
  exact cellAt_lt hj

end Sys2Proof.Machine
end

