-- ==== Sys2Proof/Laws/PerInstr.lean ====
section
/-! SUPPORT. Facts about every instruction as syntax, one lemma per constructor: the encoding of an instruction lies in its
own row of the opcode table (spec/30_encoding.md R86: a word selects the row iff its masked bits equal the match). -/

namespace Sys2Proof.Laws

theorem mask_encodeA (op : Nibble) (nnn : Addr12) : encodeA op nnn &&& 0xF000#16 = op ++ 0#12 := by
  apply BitVec.eq_of_getLsbD_eq
  intro i hi
  simp only [encodeA, BitVec.getLsbD_and, BitVec.getLsbD_append]
  interval_cases i <;> simp

theorem mask_encodeI (op : Nibble) (x : RegIdx) (nn : Byte) : encodeI op x nn &&& 0xF000#16 = op ++ 0#12 := by
  apply BitVec.eq_of_getLsbD_eq
  intro i hi
  simp only [encodeI, BitVec.getLsbD_and, BitVec.getLsbD_append]
  interval_cases i <;> simp

theorem mask_encodeX (op : Nibble) (x : RegIdx) (nn : Byte) : encodeI op x nn &&& 0xF0FF#16 = op ++ 0#4 ++ nn := by
  apply BitVec.eq_of_getLsbD_eq
  intro i hi
  simp only [encodeI, BitVec.getLsbD_and, BitVec.getLsbD_append]
  interval_cases i <;> simp

theorem mask_encodeR (op : Nibble) (x y : RegIdx) (n : Nibble) :
    encodeR op x y n &&& 0xF00F#16 = op ++ 0#4 ++ 0#4 ++ n := by
  apply BitVec.eq_of_getLsbD_eq
  intro i hi
  simp only [encodeR, BitVec.getLsbD_and, BitVec.getLsbD_append]
  interval_cases i <;> simp

theorem mask_encodeD (op : Nibble) (x y : RegIdx) (n : Nibble) : encodeR op x y n &&& 0xF000#16 = op ++ 0#12 := by
  apply BitVec.eq_of_getLsbD_eq
  intro i hi
  simp only [encodeR, BitVec.getLsbD_and, BitVec.getLsbD_append]
  interval_cases i <;> simp

namespace EncodesInItsRow

/-- The masked bits of the instruction's word equal its row's match. -/
def Statement (i : Instr) : Prop := encode i &&& (tableRow i).1 = (tableRow i).2

theorem cls : Statement .cls := rfl
theorem ret : Statement .ret := rfl
theorem jp (nnn : Addr12) : Statement (.jp nnn) := mask_encodeA _ nnn
theorem call (nnn : Addr12) : Statement (.call nnn) := mask_encodeA _ nnn
theorem seImm (x : RegIdx) (nn : Byte) : Statement (.seImm x nn) := mask_encodeI _ x nn
theorem sneImm (x : RegIdx) (nn : Byte) : Statement (.sneImm x nn) := mask_encodeI _ x nn
theorem seReg (x : RegIdx) (y : RegIdx) : Statement (.seReg x y) := mask_encodeR _ x y _
theorem ldImm (x : RegIdx) (nn : Byte) : Statement (.ldImm x nn) := mask_encodeI _ x nn
theorem addImm (x : RegIdx) (nn : Byte) : Statement (.addImm x nn) := mask_encodeI _ x nn
theorem ldReg (x : RegIdx) (y : RegIdx) : Statement (.ldReg x y) := mask_encodeR _ x y _
theorem orReg (x : RegIdx) (y : RegIdx) : Statement (.orReg x y) := mask_encodeR _ x y _
theorem andReg (x : RegIdx) (y : RegIdx) : Statement (.andReg x y) := mask_encodeR _ x y _
theorem xorReg (x : RegIdx) (y : RegIdx) : Statement (.xorReg x y) := mask_encodeR _ x y _
theorem addReg (x : RegIdx) (y : RegIdx) : Statement (.addReg x y) := mask_encodeR _ x y _
theorem subReg (x : RegIdx) (y : RegIdx) : Statement (.subReg x y) := mask_encodeR _ x y _
theorem shr (x : RegIdx) (y : RegIdx) : Statement (.shr x y) := mask_encodeR _ x y _
theorem subn (x : RegIdx) (y : RegIdx) : Statement (.subn x y) := mask_encodeR _ x y _
theorem shl (x : RegIdx) (y : RegIdx) : Statement (.shl x y) := mask_encodeR _ x y _
theorem sneReg (x : RegIdx) (y : RegIdx) : Statement (.sneReg x y) := mask_encodeR _ x y _
theorem ldI (nnn : Addr12) : Statement (.ldI nnn) := mask_encodeA _ nnn
theorem jpV0 (nnn : Addr12) : Statement (.jpV0 nnn) := mask_encodeA _ nnn
theorem rnd (x : RegIdx) (nn : Byte) : Statement (.rnd x nn) := mask_encodeI _ x nn
theorem drw (x : RegIdx) (y : RegIdx) (n : Fin 16) : Statement (.drw x y n) := mask_encodeD _ x y _
theorem skp (x : RegIdx) : Statement (.skp x) := mask_encodeX _ x _
theorem sknp (x : RegIdx) : Statement (.sknp x) := mask_encodeX _ x _
theorem ldVxDT (x : RegIdx) : Statement (.ldVxDT x) := mask_encodeX _ x _
theorem ldVxK (x : RegIdx) : Statement (.ldVxK x) := mask_encodeX _ x _
theorem ldDTVx (x : RegIdx) : Statement (.ldDTVx x) := mask_encodeX _ x _
theorem ldSTVx (x : RegIdx) : Statement (.ldSTVx x) := mask_encodeX _ x _
theorem addI (x : RegIdx) : Statement (.addI x) := mask_encodeX _ x _
theorem ldF (x : RegIdx) : Statement (.ldF x) := mask_encodeX _ x _
theorem ldB (x : RegIdx) : Statement (.ldB x) := mask_encodeX _ x _
theorem storeRegs (x : RegIdx) : Statement (.storeRegs x) := mask_encodeX _ x _
theorem loadRegs (x : RegIdx) : Statement (.loadRegs x) := mask_encodeX _ x _

end EncodesInItsRow

end Sys2Proof.Laws
end

