-- ==== Sys2Proof/Laws/Step.lean ====
section
/-! SUPPORT. What one event and one step can do, said once (spec/40_step_cycle.md R110, spec/60_exceptions.md R210). -/

namespace Sys2Proof.Machine

/-- An instruction always leaves a next state: a fault is a state with the latch set (R206). -/
theorem exec_answers_next (i : Instr) (s : State) : ∃ t, exec i s = .next t := by
  cases i <;>
    simp only [exec, execCls, execRet, execJp, execCall, execSeImm, execSneImm, execSeReg, execLdImm, execAddImm,
      execLdReg, execOrReg, execAndReg, execXorReg, execAddReg, execSubReg, execShr, execSubn, execShl, execSneReg,
      execLdI, execJpV0, execRnd, execDrw, execSkp, execSknp, execLdVxDT, execLdVxK, execLdDTVx, execLdSTVx, execAddI,
      execLdF, execLdB, execStoreRegs, execLoadRegs, State.raise] <;>
    first
      | exact ⟨_, rfl⟩
      | (split <;> exact ⟨_, rfl⟩)

/-- Everything an instruction can do: take a fault, which changes the latch alone (R206), or leave the latch, the key latch,
the configuration and the driver's side, but for the count of draws, as they were. -/
theorem exec_cases {i : Instr} {s t : State} (h : exec i s = .next t) :
    (∃ k, t = { s with fault := some k }) ∨
    (t.fault = s.fault ∧ t.key = s.key ∧ t.config = s.config ∧
      t.driver = { s.driver with draws := t.driver.draws }) := by
  cases i <;>
    simp only [exec, execCls, execRet, execJp, execCall, execSeImm, execSneImm, execSeReg, execLdImm, execAddImm,
      execLdReg, execOrReg, execAndReg, execXorReg, execAddReg, execSubReg, execShr, execSubn, execShl, execSneReg,
      execLdI, execJpV0, execRnd, execDrw, execSkp, execSknp, execLdVxDT, execLdVxK, execLdDTVx, execLdSTVx, execAddI,
      execLdF, execLdB, execStoreRegs, execLoadRegs, State.raise, State.skipIf_eq] at h
  case ret =>
    split at h <;> cases h
    · exact .inl ⟨_, rfl⟩
    · rename_i hp
      rw [(State.pop_some hp).2.2.2]
      exact .inr ⟨rfl, rfl, rfl, rfl⟩
  case call =>
    split at h <;> cases h
    · exact .inl ⟨_, rfl⟩
    · rename_i hp
      obtain ⟨_, _, e⟩ := State.push_some hp
      rw [e]
      exact .inr ⟨rfl, rfl, rfl, rfl⟩
  all_goals
    (try split at h) <;> cases h <;>
      first
        | exact .inl ⟨_, rfl⟩
        | exact .inr ⟨rfl, rfl, rfl, rfl⟩
        | simp

/-- The three ways an instruction cycle ends (R110). -/
theorem runInstruction_cases (s : State) :
    (s.fetch = none ∧ runInstruction s = s.raise .memoryOutOfBounds) ∨
    (∃ w e, s.fetch = some w ∧ decode s.config.keyWait w = .error e ∧ runInstruction s = s.raise .invalidOpcode) ∨
    (∃ w i, s.fetch = some w ∧ decode s.config.keyWait w = .ok i ∧ runInstruction s = exec i s) := by
  unfold runInstruction
  cases hf : s.fetch with
  | none => exact .inl ⟨rfl, rfl⟩
  | some w =>
    cases hd : decode s.config.keyWait w with
    | error e => exact .inr (.inl ⟨w, e, rfl, hd, by simp only [hd]⟩)
    | ok i => exact .inr (.inr ⟨w, i, rfl, hd, by simp only [hd]⟩)

/-- A fetch succeeds exactly from 0..4094 (R112). -/
theorem State.fetch_eq_none_iff (s : State) : s.fetch = none ↔ 4094 < s.pc.toNat := by
  simp only [State.fetch, State.readWord, inMemory, decide_eq_true_eq]
  split <;> simp <;> omega

theorem State.fetch_eq_some {s : State} (h : s.pc.toNat ≤ 4094) :
    s.fetch = some (wordOfBytes (s.readByte s.pc.toNat) (s.readByte (s.pc.toNat + 1))) := by
  have : s.pc.toNat + 1 ≤ 4095 := by omega
  simp [State.fetch, State.readWord, inMemory, this]

/-- A step issues the event at the head of the schedule. -/
theorem step_of_scheduled {s : State} {e : Event} {rest : List Event} (h : s.driver.schedule = e :: rest) :
    step s = applyEvent e (s.issued rest) := by
  simp [step, nextEvent, h]

/-- A step with nothing scheduled is a Step event with a free random byte. -/
theorem step_of_unscheduled {s : State} (h : s.driver.schedule = []) (hf : s.fault = none) :
    step s = stepEvent none s := by
  simp [step, nextEvent, h, hf]

/-- A running machine's Step event is an instruction cycle (R110). -/
theorem stepEvent_running {s : State} (h : s.fault = none) (r : Option Byte) :
    stepEvent r s = runInstruction (s.beginStep r) := by
  simp [stepEvent, h]

/-- A running machine whose driver issues a Step next runs one instruction cycle, and only the driver's side is new to it. -/
theorem step_of_stepIsNext {s : State} (hf : s.Running) (hn : s.StepIsNext) :
    ∃ d, step s = runInstruction { s with driver := d } := by
  rcases hn with h | ⟨r, rest, h⟩
  · exact ⟨_, (step_of_unscheduled h hf).trans (stepEvent_running hf none)⟩
  · exact ⟨_, (step_of_scheduled h).trans (stepEvent_running (s := s.issued rest) hf (some r))⟩

/-- Everything a step can do: stop on a latched fault, or apply one event. -/
theorem step_cases (s : State) :
    (∃ k, s.driver.schedule = [] ∧ s.fault = some k ∧ step s = .fault (.latched k)) ∨
    (s.driver.schedule = [] ∧ s.fault = none ∧ step s = runInstruction (s.beginStep none)) ∨
    (∃ e rest, s.driver.schedule = e :: rest ∧ step s = applyEvent e (s.issued rest)) := by
  cases hd : s.driver.schedule with
  | cons e rest => exact .inr (.inr ⟨e, rest, rfl, step_of_scheduled hd⟩)
  | nil =>
    cases hf : s.fault with
    | some k => exact .inl ⟨k, rfl, rfl, by simp [step, nextEvent, hd, hf]⟩
    | none =>
      refine .inr (.inl ⟨rfl, rfl, ?_⟩)
      rw [step_of_unscheduled hd hf, stepEvent_running hf]

end Sys2Proof.Machine
end

