-- ==== Sys2Proof/Tests/Slice0.lean ====
section
/-! SUPPORT. The model's own tests. The expected results are those of spec/95_test_vectors.md, whose vector each test names
(S, F, B, A, M, G, K and E are its series); the witnesses at the end meet the hypotheses of the statements. -/

namespace Sys2Proof.Tests

open Sys2Proof.Machine

/-! ### Helpers -/

/-- The reset state with one word at 0x200, the start of every vector. -/
def start (w : Nat) : State := State.reset.withFetchWord 16 w

/-- Registers set one after another. -/
def withRegs (s : State) (l : List (RegIdx × Byte)) : State := l.foldl (fun s p => s.setReg p.1 p.2) s

/-- The start of a vector with some registers set. -/
def startR (w : Nat) (l : List (RegIdx × Byte)) : State := withRegs (start w) l

/-- The start of a vector with `I`, some bytes from it up and some registers set. -/
def startI (w : Nat) (i : Word) (bytes : List Byte) (l : List (RegIdx × Byte)) : State :=
  { (startR w l).writeBytes i.toNat bytes with i := i }

/-- The state an answer leaves, where it leaves one. -/
def left? : Result → Option State
  | .next t => some t
  | .fault _ => none
  | .refused _ => none

/-- What `f` reads from the state one step leaves. -/
def after {α : Type} (s : State) (f : State → α) : Option α := (left? (step s)).map f

/-- The state an answer leaves, or the reset state. -/
def leftState (r : Result) : State := (left? r).getD State.reset

/-- An answer that leaves a state leaves that state. -/
theorem answers {r : Result} (h : (left? r).isSome = true) : r = .next (leftState r) := by
  cases r with
  | next t => rfl
  | fault _ => cases h
  | refused _ => cases h

/-- The configuration with the other value of every parameter but the glyphs. -/
def otherConfig : Config := { Config.defaults with shiftSrc := .vy, spriteEdge := .clip, keyWait := .wait }

/-- A state under the other configuration. -/
def State.other (s : State) : State := { s with config := otherConfig }

/-! ### Well-formedness -/

theorem test_wellFormed_refuses_key_wait_under_fault : Instr.wellFormed .fault (.ldVxK 3) = false := by decide

theorem test_wellFormed_admits_key_wait_under_wait : Instr.wellFormed .wait (.ldVxK 3) = true := by decide

/-! ### Decoding: words written out from the patterns of R86 -/

theorem test_decode_control :
    decode .fault 0b0000_0000_1110_1110 = .ok .ret ∧ decode .fault 0b0001_0010_0011_0100 = .ok (.jp 0x234) ∧
    decode .fault 0b0010_1010_1011_1100 = .ok (.call 0xABC) ∧
    decode .fault 0b0011_1010_0100_0010 = .ok (.seImm 10 0x42) ∧
    decode .fault 0b0100_1010_0100_0010 = .ok (.sneImm 10 0x42) ∧
    decode .fault 0b0101_0001_0010_0000 = .ok (.seReg 1 2) ∧
    decode .fault 0b1001_0001_0010_0000 = .ok (.sneReg 1 2) ∧
    decode .fault 0b1011_0011_0000_0000 = .ok (.jpV0 0x300) := by decide

theorem test_decode_load_and_random :
    decode .fault 0b0110_1010_0100_0010 = .ok (.ldImm 10 0x42) ∧
    decode .fault 0b0111_1010_0000_0010 = .ok (.addImm 10 2) ∧
    decode .fault 0b1100_0011_0000_1111 = .ok (.rnd 3 0x0F) := by decide

theorem test_decode_class_8 :
    decode .fault 0b1000_0001_0010_0000 = .ok (.ldReg 1 2) ∧ decode .fault 0b1000_0001_0010_0001 = .ok (.orReg 1 2) ∧
    decode .fault 0b1000_0001_0010_0010 = .ok (.andReg 1 2) ∧ decode .fault 0b1000_0001_0010_0011 = .ok (.xorReg 1 2) ∧
    decode .fault 0b1000_0001_0010_0100 = .ok (.addReg 1 2) ∧ decode .fault 0b1000_0001_0010_0101 = .ok (.subReg 1 2) ∧
    decode .fault 0b1000_0001_0010_0110 = .ok (.shr 1 2) ∧ decode .fault 0b1000_0001_0010_0111 = .ok (.subn 1 2) ∧
    decode .fault 0b1000_0001_0010_1110 = .ok (.shl 1 2) := by decide

theorem test_decode_index_and_memory :
    decode .fault 0b1010_1111_1111_1111 = .ok (.ldI 0xFFF) ∧ decode .fault 0b1111_0010_0001_1110 = .ok (.addI 2) ∧
    decode .fault 0b1111_0010_0010_1001 = .ok (.ldF 2) ∧ decode .fault 0b1111_0010_0011_0011 = .ok (.ldB 2) ∧
    decode .fault 0b1111_0010_0101_0101 = .ok (.storeRegs 2) ∧
    decode .fault 0b1111_0010_0110_0101 = .ok (.loadRegs 2) := by decide

theorem test_decode_display :
    decode .fault 0b0000_0000_1110_0000 = .ok .cls ∧
    decode .fault 0b1101_0001_0010_1111 = .ok (.drw 1 2 15) := by decide

theorem test_decode_timer_and_key :
    decode .fault 0b1110_0010_1001_1110 = .ok (.skp 2) ∧ decode .fault 0b1110_0010_1010_0001 = .ok (.sknp 2) ∧
    decode .fault 0b1111_0101_0000_0111 = .ok (.ldVxDT 5) ∧ decode .wait 0b1111_0011_0000_1010 = .ok (.ldVxK 3) ∧
    decode .fault 0b1111_0101_0001_0101 = .ok (.ldDTVx 5) ∧
    decode .fault 0b1111_0000_0001_1000 = .ok (.ldSTVx 0) := by decide

/-- S12, B16, B19, A33, K14, K17, K18: every class of R87 by a name of its own. -/
theorem test_decode_illegal :
    decode .fault 0x0123 = .error .class0 ∧ decode .fault 0x5121 = .error .class5LowNibble ∧
    decode .fault 0x8128 = .error .class8SubFunction ∧ decode .fault 0x912F = .error .class9LowNibble ∧
    decode .fault 0xE19F = .error .classESubFunction ∧ decode .fault 0xF130 = .error .classFSubFunction ∧
    decode .fault 0xF30A = .error .keyWaitDisabled ∧ decodeBytes .fault [0x12] = .error .truncated := by decide

/-- The encoder lays the fields of S1's word out again. -/
theorem test_encode_drw : encode (.drw 1 2 15) = 0xD12F := by decide

/-- The bytes after an instruction's two are left alone, and the byte at the lower address is the high one (S2, R55). -/
theorem test_decodeBytes_takes_two : decodeBytes .fault [0x12, 0x34, 0x56] = .ok (.jp 0x234, [0x56]) := by decide

theorem test_decodeTableWord : decodeTableWord 16 0xF00A = some (.ldVxK 0) ∧ decodeTableWord 16 0x0000 = none := by decide

/-! ### Fetch and step -/

/-- F2, F4: the last fetchable address, and the first that is not. -/
theorem test_fetch_at_the_end_of_memory :
    after { (start 0x1200).writeBytes 4094 [0x30, 0x01] with pc := 4094 } (·.pc) = some 0x1000 ∧
    after { start 0x1200 with pc := 4095 } (fun t => (t.pc, t.fault)) = some (4095, some .memoryOutOfBounds) := by decide

/-- F1: an odd address. -/
theorem test_fetch_odd :
    after { (start 0x1200).writeBytes 0x201 [0x6A, 0x55] with pc := 0x201 } (fun t => (t.reg 10, t.pc)) =
      some (0x55, 0x203) := by decide

/-- F7: reset memory is zero, and word 0x0000 is illegal. -/
theorem test_step_reset : after State.reset (fun t => (t.pc, t.fault)) = some (0x200, some .invalidOpcode) := by decide

/-- F6: a Step of a faulted machine changes nothing but the driver's schedule. -/
theorem test_step_latched :
    after { start 0x1234 with fault := some .invalidOpcode, driver := { (start 0).driver with schedule := [.step 0] } }
      (fun t => (t.pc, t.stepResponse)) = some (0x200, .fault .invalidOpcode) := by decide

/-! ### Control flow -/

/-- B6: an empty stack. -/
theorem test_ret_underflow : after (start 0x00EE) (fun t => (t.pc, t.fault)) = some (0x200, some .stackUnderflow) := by decide

/-- B8: last in, first out. -/
theorem test_ret :
    after { start 0x00EE with sp := 2, stack := ((start 0).stack.set 0 0x206).set 1 0x30A } (fun t => (t.pc, t.sp)) =
      some (0x30A, 1) := by decide

/-- S2. -/
theorem test_jp : after (start 0x1234) (·.pc) = some 0x234 := by decide

/-- B4: the sixteenth call. -/
theorem test_call :
    after { start 0x2ABC with sp := 15 } (fun t => (t.pc, t.sp, t.stack[15])) = some (0xABC, 16, 0x202) := by decide

/-- B5: the seventeenth call. -/
theorem test_call_overflow :
    after { start 0x2ABC with sp := 16 } (fun t => (t.pc, t.sp, t.fault)) =
      some (0x200, 16, some .stackOverflow) := by decide

/-- B9, B10. -/
theorem test_seImm :
    after (startR 0x3A42 [(10, 0x42)]) (·.pc) = some 0x204 ∧ after (startR 0x3A42 [(10, 0x43)]) (·.pc) = some 0x202 := by
  decide

/-- B11, B12. -/
theorem test_sneImm :
    after (startR 0x4A42 [(10, 0x42)]) (·.pc) = some 0x202 ∧ after (startR 0x4A42 [(10, 0x43)]) (·.pc) = some 0x204 := by
  decide

/-- B13, B14. -/
theorem test_seReg :
    after (startR 0x5120 [(1, 7), (2, 7)]) (·.pc) = some 0x204 ∧
    after (startR 0x5120 [(1, 7), (2, 8)]) (·.pc) = some 0x202 := by decide

/-- B17, B18. -/
theorem test_sneReg :
    after (startR 0x9120 [(1, 7), (2, 8)]) (·.pc) = some 0x204 ∧
    after (startR 0x9120 [(1, 7), (2, 7)]) (·.pc) = some 0x202 := by decide

/-- B21: not reduced modulo 4096. -/
theorem test_jpV0 : after (startR 0xBFFF [(0, 0xFF)]) (·.pc) = some 0x10FE := by decide

/-! ### Arithmetic and logic -/

/-- A1. -/
theorem test_ldImm : after (start 0x6A42) (fun t => (t.reg 10, t.pc)) = some (0x42, 0x202) := by decide

/-- A3, A5: the sum wraps and writes no flag, in VF either. -/
theorem test_addImm :
    after (startR 0x7A02 [(10, 0xFF), (15, 1)]) (fun t => (t.reg 10, t.reg 15)) = some (0x01, 1) ∧
    after (startR 0x7F01 [(15, 0xFF)]) (·.reg 15) = some 0 := by decide

/-- A6. -/
theorem test_ldReg : after (startR 0x8120 [(1, 1), (2, 0x99), (15, 1)]) (fun t => (t.reg 1, t.reg 15)) = some (0x99, 1) := by
  decide

/-- A7. -/
theorem test_or : after (startR 0x8121 [(1, 0x0F), (2, 0xF0), (15, 1)]) (fun t => (t.reg 1, t.reg 15)) = some (0xFF, 1) := by
  decide

/-- A8. -/
theorem test_and : after (startR 0x8122 [(1, 0x3C), (2, 0x0F), (15, 1)]) (fun t => (t.reg 1, t.reg 15)) = some (0x0C, 1) := by
  decide

/-- A9. -/
theorem test_xor : after (startR 0x8123 [(1, 0xFF), (2, 0x0F), (15, 1)]) (fun t => (t.reg 1, t.reg 15)) = some (0xF0, 1) := by
  decide

/-- S5, A11: carry at 257 and none at 255. -/
theorem test_addReg :
    after (startR 0x8124 [(1, 0xFF), (2, 0x02)]) (fun t => (t.reg 1, t.reg 15)) = some (0x01, 1) ∧
    after (startR 0x8124 [(1, 0xFF), (2, 0x00), (15, 1)]) (fun t => (t.reg 1, t.reg 15)) = some (0xFF, 0) := by decide

/-- A14, A16: VF as the destination keeps the sum; VF as a source is read before it is written. -/
theorem test_addReg_vf :
    after (startR 0x8F14 [(15, 0x10), (1, 0x20)]) (·.reg 15) = some 0x30 ∧
    after (startR 0x81F4 [(1, 0xFF), (15, 0x02)]) (fun t => (t.reg 1, t.reg 15)) = some (0x01, 1) := by decide

/-- S8, A17. -/
theorem test_sub :
    after (startR 0x8125 [(1, 0), (2, 1), (15, 1)]) (fun t => (t.reg 1, t.reg 15)) = some (0xFF, 0) ∧
    after (startR 0x8125 [(1, 7), (2, 7)]) (fun t => (t.reg 1, t.reg 15)) = some (0, 1) := by decide

/-- A19: VF as the destination keeps the difference. -/
theorem test_sub_vf : after (startR 0x8F15 [(15, 3), (1, 5)]) (·.reg 15) = some 0xFE := by decide

/-- A21, A22: the two settings of SHIFT_SRC. -/
theorem test_shr :
    after (startR 0x8126 [(1, 0x05), (2, 0xF0)]) (fun t => (t.reg 1, t.reg 15)) = some (0x02, 1) ∧
    after (State.other (startR 0x8126 [(1, 0x05), (2, 0xF0)])) (fun t => (t.reg 1, t.reg 15)) = some (0x78, 0) := by decide

/-- A26, A27: the minuend is Vy. -/
theorem test_subn :
    after (startR 0x8127 [(1, 15), (2, 20)]) (fun t => (t.reg 1, t.reg 15)) = some (5, 1) ∧
    after (startR 0x8127 [(1, 1), (2, 0), (15, 1)]) (fun t => (t.reg 1, t.reg 15)) = some (0xFF, 0) := by decide

/-- A29, A30. -/
theorem test_shl :
    after (startR 0x812E [(1, 0x81), (2, 0x01)]) (fun t => (t.reg 1, t.reg 15)) = some (0x02, 1) ∧
    after (State.other (startR 0x812E [(1, 0x81), (2, 0x01)])) (fun t => (t.reg 1, t.reg 15)) = some (0x02, 0) := by decide

/-- A34: the random byte that a scheduled Step names. -/
theorem test_rnd :
    after { start 0xC30F with driver := { (start 0).driver with schedule := [.step 0xA7] } } (fun t => (t.reg 3, t.pc)) =
      some (0x07, 0x202) := by decide

/-- A35 with the byte left free: under mask 0 the result is 0 whatever the byte is. -/
theorem test_rnd_free : after (startR 0xC300 [(3, 9)]) (·.pc) = some 0x202 := by decide

/-! ### Index register and memory -/

/-- M1. -/
theorem test_ldI : after (start 0xAFFF) (·.i) = some 0xFFF := by decide

/-- M2, M3: above 4095, and the wrap at 65536. -/
theorem test_addI :
    after (startI 0xF21E 0x0FFF [] [(2, 1), (15, 1)]) (fun t => (t.i, t.reg 15)) = some (0x1000, 1) ∧
    after (startI 0xF21E 0xFFFF [] [(2, 2)]) (fun t => (t.i, t.reg 15)) = some (0x0001, 0) := by decide

/-- M6: no masking. -/
theorem test_ldF : after (startR 0xF229 [(2, 0xFF)]) (·.i) = some 0x04FB := by decide

/-- S10. -/
theorem test_ldB :
    after (startI 0xF233 0x300 [] [(2, 157)])
      (fun t => ([0x300, 0x301, 0x302].map t.readByte, t.i)) = some ([1, 5, 7], 0x300) := by decide

/-- M12, M13: the last legal address, and no partial store past it. -/
theorem test_ldB_bounds :
    after (startI 0xF233 4093 [] [(2, 128)]) (fun t => [4093, 4094, 4095].map t.readByte) = some [1, 2, 8] ∧
    after (startI 0xF233 4094 [] [(2, 128)]) (fun t => (t.readByte 4094, t.fault)) =
      some (0, some .memoryOutOfBounds) := by decide

/-- M15: V3 is not stored. -/
theorem test_storeRegs :
    after (startI 0xF255 0x300 [] [(0, 0x11), (1, 0x22), (2, 0x33), (3, 0x44)])
      (fun t => ([0x300, 0x301, 0x302, 0x303].map t.readByte, t.i)) = some ([0x11, 0x22, 0x33, 0], 0x300) := by decide

/-- M17: no partial store. -/
theorem test_storeRegs_bounds :
    after (startI 0xF155 4095 [] [(0, 0xAA), (1, 0xBB)]) (fun t => (t.readByte 4095, t.fault)) =
      some (0, some .memoryOutOfBounds) := by decide

/-- M21, M23: V3 is not loaded; the glyph table is ordinary memory. -/
theorem test_loadRegs :
    after (startI 0xF265 0x300 [1, 2, 3, 4] [(3, 0x99)]) (fun t => ([0, 1, 2, 3].map t.reg, t.i)) =
      some ([1, 2, 3, 0x99], 0x300) ∧
    after (start 0xF465) (fun t => [0, 1, 2, 3, 4].map t.reg) = some [0xF0, 0x90, 0x90, 0x90, 0xF0] := by decide

/-- M25: no partial load. -/
theorem test_loadRegs_bounds :
    after (startI 0xF165 4095 [0x77] [(0, 5), (1, 6)]) (fun t => (t.reg 0, t.fault)) =
      some (5, some .memoryOutOfBounds) := by decide

/-- The write of a reset byte takes its entry off the list again. -/
theorem test_memory_canonical : (((start 0x1234).writeByte 0x200 0).writeByte 0x201 0).mem = [] := by decide

/-! ### Display -/

/-- G1. -/
theorem test_cls :
    after { start 0x00E0 with fb := Frame.toggle (Frame.toggle Frame.clear 0) 2047 }
      (fun t => (t.fb, t.redraw)) = some (Frame.clear, true) := by decide

/-- G2, G3, G9, G11: no row reads no memory; a row past memory draws nothing; XOR with a collision and a cell outside the
sprite; the old VF as the column. -/
theorem test_drw :
    after (startI 0xD120 0xFFFF [] [(15, 1)]) (fun t => (t.reg 15, t.redraw, t.fault)) = some (0, true, none) ∧
    after (startI 0xD122 4095 [] [(15, 1)]) (fun t => (t.reg 15, t.redraw, t.fault)) =
      some (1, false, some .memoryOutOfBounds) ∧
    after { startI 0xD121 0x300 [0xF0] [] with fb := Frame.toggle (Frame.toggle Frame.clear 1) 5 }
      (fun t => ([0, 1, 2, 3, 4, 5].map t.cell, t.reg 15)) = some ([true, false, true, true, false, true], 1) ∧
    after (startI 0xDF11 0x300 [0x80] [(15, 5), (1, 1)]) (fun t => (t.cell 69, t.reg 15)) = some (true, 0) := by decide

/-- G5, G6: the corner with SPRITE_EDGE = wrap and clip, cells as numbers row*64 + column. -/
theorem test_drw_edges :
    after (startI 0xD122 0x300 [0xFF, 0x81] [(1, 62), (2, 31)])
      (fun t => ([2046, 2047, 1984, 1989, 62, 5, 1990, 63].map t.cell)) =
      some [true, true, true, true, true, true, false, false] ∧
    after (State.other (startI 0xD122 0x300 [0xFF, 0x81] [(1, 62), (2, 31)]))
      (fun t => ([2046, 2047, 1984, 1989, 62, 5].map t.cell)) = some [true, true, false, false, false, false] := by decide

/-! ### Timers and keys -/

/-- K1. -/
theorem test_ldVxDT : after { start 0xF507 with dt := 0x3C } (fun t => (t.reg 5, t.dt)) = some (0x3C, 0x3C) := by decide

/-- K2. -/
theorem test_ldDTVx : after (startR 0xF515 [(5, 2)]) (fun t => (t.dt, t.st)) = some (2, 0) := by decide

/-- K3, K4: what the Step returns. -/
theorem test_ldSTVx :
    after (startR 0xF018 [(0, 0x1E)]) (·.stepResponse) = some (.ok false true) ∧
    after { start 0xF018 with st := 9 } (·.stepResponse) = some (.ok false false) := by decide

/-- K5, K7: a match, and no key is not key 0. -/
theorem test_skp :
    after { startR 0xE29E [(2, 0x0A)] with key := some 0xA } (·.pc) = some 0x204 ∧
    after (start 0xE29E) (·.pc) = some 0x202 := by decide

/-- K10, K13: no key; no masking of Vx. -/
theorem test_sknp :
    after (startR 0xE2A1 [(2, 0x0A)]) (·.pc) = some 0x204 ∧
    after { startR 0xE2A1 [(2, 0x1A)] with key := some 0xA } (·.pc) = some 0x204 := by decide

/-- K14: the default. -/
theorem test_ldVxK_fault :
    after { start 0xF30A with key := some 7 } (fun t => (t.pc, t.fault)) = some (0x200, some .invalidOpcode) := by decide

/-- K15, K16: waiting, and loading key 0. -/
theorem test_ldVxK_wait :
    after (State.other (start 0xF30A)) (fun t => (t.pc, t.fault)) = some (0x200, none) ∧
    after { State.other (start 0xF30A) with key := some 0 } (fun t => (t.reg 3, t.pc, t.key)) =
      some (0, 0x202, some 0) := by decide

/-! ### Events -/

/-- E1: each timer floors at 0 on its own. -/
theorem test_tick :
    (fun t : State => (t.dt, t.st, t.tone)) ({ State.reset with dt := 2, st := 1 } : State).tick = (1, 0, false) ∧
    (fun t : State => (t.dt, t.st)) ({ State.reset with dt := 1, st := 0 } : State).tick = (0, 0) := by decide

/-- E2, E3. -/
theorem test_keys : ((State.reset.keyPress 3).keyPress 9).key = some 9 ∧ (State.reset.keyPress 9).keyRelease.key = none := by
  decide

/-- E4: the redraw flag stays until it is acknowledged. -/
theorem test_redraw_is_sticky :
    after { start 0x6A42 with redraw := true } (·.stepResponse) = some (.ok true false) ∧
    ({ State.reset with redraw := true } : State).ackRedraw.redraw = false := by decide

/-- E8: an odd length; the byte after the program is 0. -/
theorem test_load :
    (left? (State.reset.loadEvent [0x12])).map (·.fetch) = some (some 0x1200) ∧
    (left? (State.reset.loadEvent [0x12])).map (·.loadResponse) = some none := by decide

/-- E6: 3585 bytes. -/
theorem test_load_too_large :
    applyEvent (.load (List.replicate 3585 0xAA)) State.reset = State.raise .romTooLarge State.reset := by
  have h : (List.replicate 3585 (0xAA : Byte)).length > romMax := by
    rw [List.length_replicate]; decide
  show State.loadEvent _ _ = _
  unfold State.loadEvent
  rw [if_neg (by decide), if_neg (by decide), if_pos h]

/-- E9, E10: Reset clears the latch and the memory. -/
theorem test_reset :
    (fun t : State => (t.fault, t.mem, t.pc, t.dt))
      ({ start 0x1234 with fault := some .invalidOpcode, pc := 0x333, dt := 5 } : State).resetEvent =
      (none, [], 0x200, 0) := by decide

/-! ### The machine as the host runs it -/

theorem test_withFetchWord_fetches : (start 0x1234).fetch = some 0x1234 := by decide

theorem test_withFetchWord_leaves_the_rest : { start 0x1234 with mem := [] } = State.reset := by decide

/-! ### Witnesses: for every statement with hypotheses, a state and operands that meet them together -/

/-- A state at a given stack depth. -/
def depth (s : State) (d : Fin 17) : State := { s with sp := d }

theorem witness_DecodeInvertsEncode :
    Instr.wellFormed .wait (.ldVxK 15) = true ∧ Instr.wellFormed .fault (.drw 15 0 15) = true := by decide

theorem witness_EncodeInvertsDecode : ∃ i, decode .fault 0x1FFF = .ok i := ⟨.jp 0xFFF, by decide⟩

/-- At 4094 with nothing scheduled, and with a Step scheduled. -/
theorem witness_StepRunsTheDecodedInstruction :
    (∃ (s : State) (i : Instr), s.fault = none ∧ s.pc.toNat = 4094 ∧ s.driver.schedule = [] ∧
      decode s.config.keyWait (s.readByte s.pc.toNat ++ s.readByte (s.pc.toNat + 1)) = .ok i) ∧
    (∃ (s : State) (i : Instr) (r : Byte) (rest : List Event), s.fault = none ∧ s.pc.toNat ≤ 4094 ∧
      s.driver.schedule = .step r :: rest ∧
      decode s.config.keyWait (s.readByte s.pc.toNat ++ s.readByte (s.pc.toNat + 1)) = .ok i) :=
  ⟨⟨{ (start 0x1234).writeBytes 4094 [0x30, 0x01] with pc := 4094 }, .seImm 0 1, by decide⟩,
   ⟨{ start 0x1234 with driver := { (start 0).driver with schedule := [.step 7, .tick] } }, .jp 0x234, 7, [.tick],
     by decide⟩⟩

theorem witness_FetchIsBigEndianAndBounded :
    (∃ s : State, s.pc.toNat = 4094) ∧ ∃ s : State, s.Running ∧ s.StepIsNext ∧ s.pc.toNat = 4095 :=
  ⟨⟨{ start 0x1234 with pc := 4094 }, by decide⟩, ⟨{ start 0x1234 with pc := 4095 }, by decide, .inl rfl, by decide⟩⟩

theorem witness_IllegalWordTakesInvalidOpcode :
    ∃ (s : State) (e : Illegal), s.Running ∧ s.StepIsNext ∧ s.pc.toNat ≤ 4094 ∧
      decode s.config.keyWait (s.readByte s.pc.toNat ++ s.readByte (s.pc.toNat + 1)) = .error e :=
  ⟨start 0x8128, .class8SubFunction, by decide, .inl rfl, by decide, by decide⟩

/-- A latched fault. -/
def faulted : State := { start 0x1234 with fault := some .stackOverflow, dt := 5 }

theorem witness_LatchedFaultIsTerminal :
    ∃ (s t : State) (k : FaultKind) (e : Event), s.fault = some k ∧ e ≠ .reset ∧ applyEvent e s = .next t :=
  ⟨faulted, _, .stackOverflow, .tick, by decide, by decide, answers (by decide)⟩

theorem witness_FaultingEventChangesOnlyTheLatch :
    ∃ (s t : State) (e : Event) (k : FaultKind), s.fault = none ∧ applyEvent e s = .next t ∧ t.fault = some k :=
  ⟨start 0x00EE, _, .step 0, .stackUnderflow, by decide, answers (by decide), by decide⟩

/-- Each fault at the edge of its condition, and an instruction that takes none. -/
theorem witness_InstructionFaultsHaveTheirConditions :
    (leftState (exec (.call 0) (depth (start 0) 16))).fault = some .stackOverflow ∧
    (leftState (exec .ret (start 0))).fault = some .stackUnderflow ∧
    (leftState (exec (.drw 0 0 1) (startI 0 4096 [] []))).fault = some .memoryOutOfBounds ∧
    (leftState (exec (.ldB 0) (startI 0 4094 [] []))).fault = some .memoryOutOfBounds ∧
    (leftState (exec (.storeRegs 1) (startI 0 4095 [] []))).fault = some .memoryOutOfBounds ∧
    (leftState (exec (.loadRegs 1) (startI 0 4095 [] []))).fault = some .memoryOutOfBounds ∧
    (leftState (exec (.ldVxK 0) (start 0))).fault = some .invalidOpcode ∧
    (leftState (exec (.loadRegs 0) (startI 0 4095 [] []))).fault = none := by decide

theorem witness_InstructionFaultsHaveTheirConditions_hypotheses :
    ∃ (i : Instr) (s t : State), s.fault = none ∧ exec i s = .next t :=
  ⟨.ret, start 0, _, by decide, answers (by decide)⟩

/-- The two stops of a step, and a step that goes on. -/
theorem witness_StepStopsOnlyAsNamed :
    (∃ t, step (start 0x1234) = .next t) ∧ step faulted = .fault (.latched .stackOverflow) ∧
    step { start 0 with driver := { (start 0).driver with schedule := [.load []], loadable := false } } =
      .refused .loadOutOfSequence :=
  ⟨⟨_, answers (by decide)⟩, rfl, rfl⟩

theorem witness_StepKeepsTheInvariant : ∃ s t : State, s.Inv ∧ step s = .next t :=
  ⟨start 0x2ABC, _, by decide, answers (by decide)⟩

/-- The bounds of the invariant are met with a live slot at 4096 and `PC` at 4350. -/
theorem witness_StepKeepsTheInvariant_boundary :
    State.Inv { depth (start 0x00EE) 1 with pc := 4350, stack := (start 0).stack.set 0 4096 } := by decide

theorem witness_FaultFreezesTheProgramState :
    ∃ (s t : State) (e : Event) (k : FaultKind), s.fault = some k ∧ e ≠ .reset ∧ applyEvent e s = .next t :=
  ⟨faulted, _, .keyPress 4, .stackOverflow, by decide, by decide, answers (by decide)⟩

/-- Each clause with the change it speaks of. -/
theorem witness_InstructionsLeaveTheOtherEngines :
    (∃ t, exec (.ldDTVx 5) (startR 0 [(5, 2)]) = .next t ∧ t.dt ≠ (start 0).dt) ∧
    (∃ t, exec (.ldSTVx 5) (startR 0 [(5, 2)]) = .next t ∧ t.st ≠ (start 0).st) ∧
    (∃ t, exec .cls (start 0) = .next t ∧ t.redraw ≠ (start 0).redraw) :=
  ⟨⟨_, answers (by decide), by decide⟩, ⟨_, answers (by decide), by decide⟩, ⟨_, answers (by decide), by decide⟩⟩

theorem witness_FlagRegisterWriters :
    ∃ (i : Instr) (s t : State), exec i s = .next t ∧ t.reg vf ≠ s.reg vf :=
  ⟨.addReg 1 2, startR 0 [(1, 0xFF), (2, 2)], _, answers (by decide), by decide⟩

/-- Each clause with the change it speaks of. -/
theorem witness_OnlyTheNamedInstructionsWrite :
    (∃ t, exec (.ldI 0xFFF) (start 0) = .next t ∧ t.i ≠ (start 0).i) ∧
    (∃ t, exec (.call 0x300) (start 0) = .next t ∧ t.sp ≠ (start 0).sp) ∧
    (∃ t, exec (.ldB 1) (startI 0 0x300 [] [(1, 7)]) = .next t ∧ t.readByte 0x302 ≠ (start 0).readByte 0x302) ∧
    (∃ t, exec (.drw 0 1 1) (start 0) = .next t ∧ t.cell 0 ≠ (start 0).cell 0) :=
  ⟨⟨_, answers (by decide), by decide⟩, ⟨_, answers (by decide), by decide⟩, ⟨_, answers (by decide), by decide⟩,
   ⟨_, answers (by decide), by decide⟩⟩

theorem witness_ConfigurationNeverChanges : ∃ s t : State, step s = .next t ∧ s.config ≠ Config.defaults :=
  ⟨State.other (start 0x1234), _, answers (by decide), by decide⟩

/-- The three fixed points, and a step that is none. -/
theorem witness_StepFixedPoints :
    (∃ s t : State, s.Running ∧ s.pc.toNat ≤ 4094 ∧ s.StepIsNext ∧ step s = .next t ∧ t.pc = s.pc) ∧
    after (startR 0xB101 [(0, 0xFF)]) (·.pc) = some 0x200 ∧
    after (State.other (start 0xF30A)) (·.pc) = some 0x200 ∧ after (start 0x1234) (·.pc) = some 0x234 :=
  ⟨⟨start 0x1200, _, by decide, by decide, .inl rfl, answers (by decide), by decide⟩, by decide⟩

theorem witness_RetPopsTheReturnAddress :
    (∃ s : State, s.sp.val = 0) ∧ (∃ s : State, s.sp.val = 1) ∧ ∃ s : State, s.sp.val = 16 :=
  ⟨⟨start 0, by decide⟩, ⟨depth (start 0) 1, by decide⟩, ⟨depth (start 0) 16, by decide⟩⟩

theorem witness_CallPushesTheReturnAddress : (∃ s : State, s.sp.val = 16) ∧ ∃ s : State, s.sp.val = 15 :=
  ⟨⟨depth (start 0) 16, by decide⟩, ⟨depth (start 0) 15, by decide⟩⟩

theorem witness_CallThenReturn : ∃ s : State, s.sp.val < 16 := ⟨depth (start 0) 15, by decide⟩

/-- `x ≠ vf`, in AddWithCarryOut, SubtractBothWays and ShiftsByOne. -/
theorem witness_flag_clauses : ∃ x : RegIdx, x ≠ vf := ⟨14, by decide⟩

theorem witness_ShiftsByOne :
    ∃ s s' : State, s.config.shiftSrc = .vx ∧ s'.config.shiftSrc = .vy := ⟨start 0, State.other (start 0), by decide⟩

theorem witness_FreeRandomStaysUnderTheMask : ∃ s : State, s.driver.rnd = none := ⟨start 0xC30F, by decide⟩

theorem witness_RandomUnderTheMask : ∃ (s : State) (r : Byte), s.driver.rnd = some r :=
  ⟨(start 0xC30F).beginStep (some 0xA7), 0xA7, by decide⟩

/-- `I + 2` at 4095 and at 4096. -/
theorem witness_StoreDecimalDigits : (∃ s : State, s.indexed 2 = 4095) ∧ ∃ s : State, s.indexed 2 = 4096 :=
  ⟨⟨startI 0 4093 [] [], by decide⟩, ⟨startI 0 4094 [] [], by decide⟩⟩

/-- `I + x` at 4095 and at 4096, for the dump and the load. -/
theorem witness_RegisterDump_and_RegisterLoad :
    (∃ (s : State) (x : RegIdx), s.indexed x.val = 4095) ∧ ∃ (s : State) (x : RegIdx), s.indexed x.val = 4096 :=
  ⟨⟨startI 0 4080 [] [], 15, by decide⟩, ⟨startI 0 4095 [] [], 1, by decide⟩⟩

theorem witness_DumpThenLoadRestores :
    ∃ (s t u : State) (x : RegIdx), s.indexed x.val ≤ 4095 ∧ exec (.storeRegs x) s = .next t ∧
      u.mem = t.mem ∧ u.config = t.config ∧ u.i = t.i ∧ u.reg 0 ≠ t.reg 0 :=
  ⟨startI 0 0x300 [] [(0, 0x11), (1, 0x22)], leftState (exec (.storeRegs 1) (startI 0 0x300 [] [(0, 0x11), (1, 0x22)])),
    (leftState (exec (.storeRegs 1) (startI 0 0x300 [] [(0, 0x11), (1, 0x22)]))).setReg 0 0x99, 1,
    by decide, answers (by decide), by decide, by decide, by decide, by decide⟩

theorem witness_StoredWordIsFetched : ∃ (s : State) (x : RegIdx), 1 ≤ x.val ∧ s.indexed x.val = 4095 :=
  ⟨startI 0 4094 [] [], 1, by decide⟩

theorem witness_CanonicalMemoryIsDeterminedByReads :
    ∃ (g : Glyphs) (m m' : Memory), Memory.wf g m = true ∧ Memory.wf g m' = true ∧
      ∀ a, Memory.read g m a = Memory.read g m' a :=
  ⟨Config.conventionalGlyphs, (start 0x1234).mem, [(0x200, 0x12), (0x201, 0x34)], by decide, by decide, fun a => by
    rw [show (start 0x1234).mem = [(0x200, 0x12), (0x201, 0x34)] by decide]⟩

/-- No row with `I` past memory; rows that end at 4095; rows that end at 4096. -/
theorem witness_DrawSprite :
    (∃ (s : State) (n : Fin 16), n.val = 0 ∧ s.i.toNat > 4095) ∧
    (∃ (s : State) (n : Fin 16), n.val ≥ 1 ∧ s.i.toNat + n.val - 1 = 4095) ∧
    (∃ (s : State) (n : Fin 16), n.val ≥ 1 ∧ s.i.toNat + n.val - 1 = 4096) :=
  ⟨⟨startI 0 4096 [] [], 0, by decide⟩, ⟨startI 0 4081 [] [], 15, by decide⟩, ⟨startI 0 4096 [] [], 1, by decide⟩⟩

/-- A covered cell, set and clear. -/
theorem witness_DrawSprite_covers :
    (∃ (s : State) (j : Nat), s.Covers 1 2 1 j ∧ s.cell j = false) ∧
    ∃ (s : State) (j : Nat), s.Covers 1 2 1 j ∧ s.cell j = true :=
  ⟨⟨startI 0 0x300 [0x80] [(1, 3), (2, 2)], 131, ⟨0, by decide, 0, by decide, by decide, rfl⟩, by decide⟩,
   ⟨{ startI 0 0x300 [0x80] [(1, 3), (2, 2)] with fb := Frame.toggle Frame.clear 131 }, 131,
     ⟨0, by decide, 0, by decide, by decide, rfl⟩, by decide⟩⟩

theorem witness_DrawingTwiceRestores :
    ∃ (s : State) (x y : RegIdx) (n : Fin 16), x ≠ vf ∧ y ≠ vf ∧ (n.val = 0 ∨ s.i.toNat + n.val - 1 ≤ 4095) :=
  ⟨startI 0 0x300 [0x80] [], 1, 2, 1, by decide⟩

/-- A key that matches, a key that does not, and none. -/
theorem witness_KeySkips :
    (∃ (s : State) (x : RegIdx), ∃ k, s.key = some k ∧ k.toNat = (s.reg x).toNat) ∧
    (∃ (s : State) (x : RegIdx), ¬ ∃ k, s.key = some k ∧ k.toNat = (s.reg x).toNat) ∧ ∃ s : State, s.key = none :=
  ⟨⟨{ startR 0 [(2, 0x0F)] with key := some 0xF }, 2, 0xF, by decide, by decide⟩,
   ⟨{ startR 0 [(2, 0x1F)] with key := some 0xF }, 2, by rintro ⟨k, h, h'⟩; cases h; revert h'; decide⟩,
   ⟨start 0, by decide⟩⟩

theorem witness_LoadKeyOrWait :
    (∃ s : State, s.config.keyWait = .wait ∧ ∃ k, s.key = some k) ∧
    (∃ s : State, s.config.keyWait = .wait ∧ s.key = none) ∧ ∃ s : State, s.config.keyWait = .fault :=
  ⟨⟨{ State.other (start 0) with key := some 0 }, by decide, 0, by decide⟩, ⟨State.other (start 0), by decide⟩,
   ⟨start 0, by decide⟩⟩

/-- Every kind latched, and none. -/
theorem witness_OutputsAreReadFromTheState :
    (∀ k : FaultKind, ∃ s : State, s.fault = some k) ∧ ∃ s : State, s.fault = none :=
  ⟨fun k => ⟨{ start 0 with fault := some k }, rfl⟩, ⟨start 0, by decide⟩⟩

/-- Programs of 3584 and of 3585 bytes, a faulted machine, and a Load out of sequence. -/
theorem witness_LoadEvent :
    (∃ (s : State) (rom : List Byte), s.fault = none ∧ s.driver.loadable = true ∧ rom.length = 3584) ∧
    (∃ (s : State) (rom : List Byte), s.fault = none ∧ s.driver.loadable = true ∧ rom.length = 3585) ∧
    (∃ (s : State) (k : FaultKind), s.fault = some k) ∧ ∃ s : State, s.fault = none ∧ s.driver.loadable = false :=
  ⟨⟨State.reset, List.replicate 3584 0xAA, by decide, by decide, List.length_replicate⟩,
   ⟨State.reset, List.replicate 3585 0xAA, by decide, by decide, List.length_replicate⟩,
   ⟨faulted, .stackOverflow, by decide⟩, ⟨(start 0).beginStep none, by decide⟩⟩

/-- An event of each clause; the Reset clause has no hypothesis, and holds of a faulted state past its Load too. -/
theorem witness_LoadOnlyDirectlyAfterReset :
    (leftState (applyEvent .reset (faulted.beginStep none))).driver.loadable = true ∧
    (∃ s t : State, s.fault = none ∧ applyEvent (.load [0x12]) s = .next t ∧ t.fault = none) ∧
    (∃ s t : State, s.fault = none ∧ applyEvent (.step 0) s = .next t ∧ t.fault = none) ∧
    ∃ s t : State, s.fault = none ∧ applyEvent .tick s = .next t ∧ t.fault = none :=
  ⟨by decide, ⟨State.reset, _, by decide, answers (by decide), by decide⟩,
   ⟨start 0x1234, _, by decide, answers (by decide), by decide⟩, ⟨start 0, _, by decide, answers (by decide), by decide⟩⟩

/-- Dead slots that differ, on a step that pops and on one that pushes. -/
theorem witness_AcknowledgeRedraw :
    ∃ (s t : State) (e : Event), e ≠ .ackRedraw ∧ e ≠ .reset ∧ s.redraw = true ∧ applyEvent e s = .next t :=
  ⟨{ start 0x6A42 with redraw := true }, _, .step 0, by decide, by decide, by decide, answers (by decide)⟩

/-- An address in the glyph table at its end, and the first one after it. -/
theorem witness_ResetEvent : (∃ a : Nat, a < 80 ∧ a + 1 = 80) ∧ ∃ a : Nat, 80 ≤ a := ⟨⟨79, by decide⟩, ⟨80, by decide⟩⟩

theorem witness_DeadStackSlotsAreUnobservable :
    ∃ s s' t : State, s' = { s with stack := s'.stack } ∧ s'.stack ≠ s.stack ∧
      (∀ j : Fin 16, j.val < s.sp.val → s'.stack[j] = s.stack[j]) ∧ step s = .next t :=
  ⟨depth (start 0x00EE) 1, { depth (start 0x00EE) 1 with stack := (start 0).stack.set 1 0x777 }, _, rfl, by decide,
    by decide, answers (by decide)⟩

theorem witness_OnlyRndReadsTheDriver : ∃ i : Instr, ∀ x nn, i ≠ .rnd x nn := ⟨.cls, fun _ _ h => by cases h⟩

theorem witness_FinishedRunStaysFinished :
    ∃ (s t : State) (e : Event), s.finished = true ∧ s.driver.loadable = false ∧ e ≠ .reset ∧
      applyEvent e s = .next t :=
  ⟨(start 0x1200).beginStep none, _, .step 0, by decide, by decide, by decide, answers (by decide)⟩

theorem witness_StepAppliesTheNextEvent :
    (∃ (s : State) (e : Event) (rest : List Event), s.driver.schedule = e :: rest) ∧
    ∃ s : State, s.driver.schedule = [] ∧ s.fault = none :=
  ⟨⟨{ start 0 with driver := { (start 0).driver with schedule := [.tick, .keyPress 7] } }, .tick, [.keyPress 7], by decide⟩,
   ⟨start 0, by decide⟩⟩

end Sys2Proof.Tests
end

namespace Sys2Proof.Machine

/-! ### Frames: how `UnchangedBut` composes, and the frame of each shared operation -/

/-- A part that reads the same across each of two changes reads the same across both. -/
theorem Part.Same.trans {s t u : State} {p : Part} (h : Part.Same s t p) (h' : Part.Same t u p) : Part.Same s u p := by
  cases p <;> exact Eq.trans h' h

theorem UnchangedBut.mono {c c' : Part → Prop} {s t : State} (h : UnchangedBut c s t) (hc : ∀ p, c p → c' p) :
    UnchangedBut c' s t :=
  fun p hp => h p fun hcp => hp (hc p hcp)

theorem UnchangedBut.trans {c c' : Part → Prop} {s t u : State} (h : UnchangedBut c s t) (h' : UnchangedBut c' t u) :
    UnchangedBut (fun p => c p ∨ c' p) s u :=
  fun p hp => (h p fun hc => hp (.inl hc)).trans (h' p fun hc => hp (.inr hc))

theorem unchangedBut_advance (s : State) : UnchangedBut (· = .pc) s s.advance := by
  intro p hp
  cases p
  case pc => exact absurd rfl hp
  all_goals rfl

theorem unchangedBut_setReg (s : State) (x : RegIdx) (v : Byte) : UnchangedBut (· = .reg x) s (s.setReg x v) := by
  intro p hp
  cases p
  case reg r => exact s.reg_setReg_ne (fun e => hp (congrArg Part.reg e)) v
  all_goals rfl

/-! ### The driver's side replaced: no read of the machine sees it, and every operation but a draw commutes with it -/

/-- The state with another driver's side. -/
def State.withDriver (s : State) (d : Driver) : State := { s with driver := d }

theorem unchangedBut_withDriver (s : State) (d : Driver) : UnchangedBut (· = .driver) s (s.withDriver d) := by
  intro p hp
  cases p
  case driver => exact absurd rfl hp
  all_goals rfl

section WithDriver

variable (s : State) (d : Driver)

@[simp] theorem State.withDriver_config : (s.withDriver d).config = s.config := rfl
@[simp] theorem State.withDriver_pc : (s.withDriver d).pc = s.pc := rfl
@[simp] theorem State.withDriver_sp : (s.withDriver d).sp = s.sp := rfl
@[simp] theorem State.withDriver_key : (s.withDriver d).key = s.key := rfl
@[simp] theorem State.withDriver_advance : (s.withDriver d).advance = s.advance.withDriver d := rfl

@[simp] theorem State.withDriver_skipIf (c : Bool) : (s.withDriver d).skipIf c = (s.skipIf c).withDriver d := by
  cases c <;> rfl

@[simp] theorem State.withDriver_writeBytes (a : Nat) (vs : List Byte) :
    (s.withDriver d).writeBytes a vs = (s.writeBytes a vs).withDriver d := by
  induction vs generalizing s a with
  | nil => rfl
  | cons v vs ih => exact ih (s.writeByte a v) (a + 1)

@[simp] theorem withDriver_loadRegsFrom (rs : List RegIdx) :
    loadRegsFrom (s.withDriver d) rs = (loadRegsFrom s rs).withDriver d := by
  induction rs generalizing s with
  | nil => rfl
  | cons r rs ih => exact ih (s.setReg r (s.readByte (s.indexed r.val)))

@[simp] theorem State.withDriver_push (v : Word) :
    (s.withDriver d).push v = (s.push v).map fun t => t.withDriver d := by
  by_cases h : s.sp.val < 16
  · simp [State.push, h]; rfl
  · simp [State.push, h]

@[simp] theorem State.withDriver_pop :
    (s.withDriver d).pop = s.pop.map fun p => (p.1, p.2.withDriver d) := by
  by_cases h : s.sp.val = 0
  · simp [State.pop, h]
  · simp [State.pop, h]; exact ⟨rfl, rfl⟩

end WithDriver

/-! ### Instructions that do not see the driver's side -/

/-- An answer with its next state, where it leaves one, changed by `f`. -/
def mapNext (f : State → State) : Result → Result
  | .next t => .next (f t)
  | .fault k => .fault k
  | .refused r => .refused r

/-- A meaning neither reads nor changes the driver's side: run with another one, it answers the same next state with that one
in it. -/
def DriverBlind (f : State → Result) : Prop :=
  ∀ (s : State) (d : Driver), f (s.withDriver d) = mapNext (fun t => t.withDriver d) (f s)

/-- The meanings that check their addresses first: they complete, or take the fault of the check (R206). -/
theorem driverBlind_of_guard {c : State → Bool} {u : State → State} {k : FaultKind}
    (hc : ∀ s d, c (s.withDriver d) = c s) (hu : ∀ s d, u (s.withDriver d) = (u s).withDriver d) :
    DriverBlind fun s => if c s then .next (u s) else s.raise k := by
  intro s d
  simp only [hc, hu]
  cases c s <;> rfl

theorem driverBlind_of_skip {c : State → Bool} (hc : ∀ s d, c (s.withDriver d) = c s) :
    DriverBlind fun s => .next (s.advance.skipIf (c s)) := by
  intro s d
  simp only [hc, State.withDriver_advance, State.withDriver_skipIf, mapNext]

theorem driverBlind_execRet : DriverBlind execRet := by
  intro s d
  simp only [execRet, State.withDriver_advance, State.withDriver_pop]
  cases s.advance.pop <;> rfl

theorem driverBlind_execCall (nnn : Addr12) : DriverBlind (execCall nnn) := by
  intro s d
  simp only [execCall, State.withDriver_advance, State.withDriver_pc, State.withDriver_push]
  cases s.advance.push s.advance.pc <;> rfl

theorem driverBlind_execLdVxK (x : RegIdx) : DriverBlind (execLdVxK x) := by
  intro s d
  simp only [execLdVxK, State.withDriver_config, State.withDriver_key]
  cases s.config.keyWait <;> cases s.key <;> rfl

/-- Every instruction but RND neither reads nor changes the driver's side (R8, R153). -/
theorem driverBlind_exec {i : Instr} (hi : ∀ x nn, i ≠ .rnd x nn) : DriverBlind (exec i) := by
  cases i
  case rnd x nn => exact absurd rfl (hi x nn)
  case ret => exact driverBlind_execRet
  case call nnn => exact driverBlind_execCall nnn
  case ldVxK x => exact driverBlind_execLdVxK x
  case seImm | sneImm | seReg | sneReg | skp | sknp => exact driverBlind_of_skip fun _ _ => rfl
  case drw => exact driverBlind_of_guard (fun _ _ => rfl) fun _ _ => rfl
  case ldB | storeRegs =>
    exact driverBlind_of_guard (fun _ _ => rfl) fun s d => s.advance.withDriver_writeBytes d _ _
  case loadRegs => exact driverBlind_of_guard (fun _ _ => rfl) fun s d => withDriver_loadRegsFrom s.advance d _
  all_goals exact fun _ _ => rfl

/-- A meaning blind to the driver's side keeps it: run with the side it already has, it answers that side. -/
theorem DriverBlind.driver_eq {f : State → Result} (hf : DriverBlind f) {s t : State} (h : f s = .next t) :
    t.driver = s.driver := by
  have hs : f s = mapNext (fun u => u.withDriver s.driver) (f s) := hf s s.driver
  rw [h] at hs
  have ht : t = t.withDriver s.driver := Host.Outcome.next.inj hs
  rw [ht]
  rfl

/-- Settles O58: every instruction but RND is blind to the driver's side, and what is blind to it keeps it. -/
theorem onlyRndReadsTheDriver : Obligations.OnlyRndReadsTheDriver := by
  intro i s d hi
  have hblind := driverBlind_exec hi
  obtain ⟨t, ht⟩ := exec_answers_next i s
  refine ⟨t, ht, hblind.driver_eq ht, (hblind s d).trans ?_⟩
  rw [ht]
  rfl

/-! ### A Step executes the decoded instruction (R110) -/

/-- The instruction cycle of a state whose two bytes at `PC` decode is the execution of what they decode to (R112, R113). -/
theorem runInstruction_of_decode {s : State} {i : Instr} (hpc : s.pc.toNat ≤ 4094)
    (hd : decode s.config.keyWait (s.readByte s.pc.toNat ++ s.readByte (s.pc.toNat + 1)) = .ok i) :
    runInstruction s = exec i s := by
  simp only [runInstruction, State.fetch_eq_some hpc, wordOfBytes, hd]

/-- Settles O6: both schedules begin an instruction cycle on the state with only the driver's side prepared, so the word it
fetches is the one at `PC`. -/
theorem stepRunsTheDecodedInstruction : Obligations.StepRunsTheDecodedInstruction := by
  intro s i hf hpc hd
  refine ⟨fun hs => ⟨?_, rfl⟩, fun r rest hs => ⟨?_, rfl⟩, fun r rest => unchangedBut_withDriver s _⟩
  · calc step s = runInstruction (s.beginStep none) := (step_of_unscheduled hs hf).trans (stepEvent_running hf none)
      _ = exec i (s.beginStep none) := runInstruction_of_decode hpc hd
  · calc step s = stepEvent (some r) (s.issued rest) := step_of_scheduled hs
      _ = runInstruction ((s.issued rest).beginStep (some r)) := stepEvent_running (s := s.issued rest) hf (some r)
      _ = exec i ((s.issued rest).beginStep (some r)) := runInstruction_of_decode hpc hd

/-! ### RND (R153) -/

/-- `RND Vx, nn` is the word Cxnn (R86). -/
theorem encodedAs_rnd (x : RegIdx) (nn : Byte) : EncodedAs (.rnd x nn) (encodeI 0xC x nn) := by
  intro kw _
  simp [decode]

/-- RND completes in every state: it advances, counts a draw and writes the byte under the mask (R153). -/
theorem exec_rnd (s : State) (x : RegIdx) (nn : Byte) :
    exec (.rnd x nn) s = .next (s.advance.countDraw.setReg x (s.rndByte &&& nn)) := rfl

theorem State.rndByte_of_none {s : State} (h : s.driver.rnd = none) : s.rndByte = Config.freeRandom s.driver.draws := by
  rw [State.rndByte, h, Option.getD_none]

theorem unchangedBut_countDraw (s : State) : UnchangedBut (· = .driver) s s.countDraw := unchangedBut_withDriver s _

/-- What RND leaves unchanged: everything but `PC`, the driver's side and `V[x]`. -/
theorem unchangedBut_rnd (s : State) (x : RegIdx) (v : Byte) :
    UnchangedBut (fun p => p = .pc ∨ p = .reg x ∨ p = .driver) s (s.advance.countDraw.setReg x v) := by
  have h := ((unchangedBut_advance s).trans (unchangedBut_countDraw _)).trans (unchangedBut_setReg _ x v)
  refine h.mono ?_
  rintro p ((hp | hp) | hp) <;> simp [hp]

/-- Settles O35: the byte written is `rndByte AND nn`, whose bits outside the mask are 0 and which is the free value where no
byte is named. -/
theorem freeRandomStaysUnderTheMask : Obligations.FreeRandomStaysUnderTheMask := by
  intro s x nn
  refine ⟨encodedAs_rnd x nn, _, exec_rnd s x nn, ?_, ?_, rfl, rfl, unchangedBut_rnd s x _⟩
  · intro b hb
    rw [State.reg_setReg_same, BitVec.getLsbD_and, hb, Bool.and_false]
  · intro hnone
    rw [State.reg_setReg_same, State.rndByte_of_none hnone]

end Sys2Proof.Machine

namespace Sys2Proof.Machine

/-! ### Frames of the remaining operations, and of a fault -/

theorem UnchangedBut.refl (c : Part → Prop) (s : State) : UnchangedBut c s s := by
  intro p _
  cases p <;> rfl

theorem unchangedBut_raise (s : State) (k : FaultKind) : UnchangedBut (· = .fault) s { s with fault := some k } := by
  intro p hp
  cases p
  case fault => exact absurd rfl hp
  all_goals rfl

theorem unchangedBut_setPc (s : State) (a : Word) : UnchangedBut (· = .pc) s (s.setPc a) := by
  intro p hp
  cases p
  case pc => exact absurd rfl hp
  all_goals rfl

theorem unchangedBut_skipIf (s : State) (c : Bool) : UnchangedBut (· = .pc) s (s.skipIf c) := by
  rw [s.skipIf_eq]
  exact unchangedBut_setPc s _

theorem unchangedBut_index (s : State) (v : Word) : UnchangedBut (· = .index) s { s with i := v } := by
  intro p hp
  cases p
  case index => exact absurd rfl hp
  all_goals rfl

theorem unchangedBut_delay (s : State) (v : Byte) : UnchangedBut (· = .delay) s { s with dt := v } := by
  intro p hp
  cases p
  case delay => exact absurd rfl hp
  all_goals rfl

theorem unchangedBut_sound (s : State) (v : Byte) : UnchangedBut (· = .sound) s { s with st := v } := by
  intro p hp
  cases p
  case sound => exact absurd rfl hp
  all_goals rfl

theorem unchangedBut_key (s : State) (k : Option Nibble) : UnchangedBut (· = .key) s { s with key := k } := by
  intro p hp
  cases p
  case key => exact absurd rfl hp
  all_goals rfl

theorem unchangedBut_redraw (s : State) (b : Bool) : UnchangedBut (· = .redraw) s { s with redraw := b } := by
  intro p hp
  cases p
  case redraw => exact absurd rfl hp
  all_goals rfl

theorem unchangedBut_display (s : State) (fb : Frame) (b : Bool) :
    UnchangedBut (fun p => (∃ j, p = .cell j) ∨ p = .redraw) s { s with fb := fb, redraw := b } := by
  intro p hp
  cases p
  case cell j => exact absurd (.inl ⟨j, rfl⟩) hp
  case redraw => exact absurd (.inr rfl) hp
  all_goals rfl

theorem unchangedBut_writeFlagThenResult (s : State) (x : RegIdx) (f : Bool) (v : Byte) :
    UnchangedBut (fun p => p = .reg vf ∨ p = .reg x) s (s.writeFlagThenResult x f v) :=
  (unchangedBut_setReg s vf _).trans (unchangedBut_setReg _ x v)

theorem unchangedBut_writeBytes (s : State) (a : Nat) (vs : List Byte) :
    UnchangedBut (fun p => ∃ b, p = .byte b) s (s.writeBytes a vs) := by
  intro p hp
  rw [s.writeBytes_eq]
  cases p
  case byte b => exact absurd ⟨b, rfl⟩ hp
  all_goals rfl

theorem unchangedBut_loadRegsFrom (s : State) (x : RegIdx) :
    UnchangedBut (fun p => ∃ r, r ≤ x ∧ p = .reg r) s (loadRegsFrom s (regsUpTo x)) := by
  intro p hp
  cases p
  case reg r =>
    have hr : r ∉ regsUpTo x := fun hr => hp ⟨r, (mem_regsUpTo x r).mp hr, rfl⟩
    exact (loadRegsFrom_reg s _ r).trans (if_neg hr)
  all_goals rw [loadRegsFrom_eq]; rfl

theorem unchangedBut_depth (s : State) (n : Fin 17) : UnchangedBut (· = .depth) s { s with sp := n } := by
  intro p hp
  cases p
  case depth => exact absurd rfl hp
  all_goals rfl

theorem unchangedBut_stack (s : State) (k : Vector Word 16) (n : Fin 17) :
    UnchangedBut (fun p => p = .depth ∨ ∃ j, p = .slot j) s { s with stack := k, sp := n } := by
  intro p hp
  cases p
  case depth => exact absurd (.inl rfl) hp
  case slot j => exact absurd (.inr ⟨j, rfl⟩) hp
  all_goals rfl

/-! ### What each instruction may write -/

/-- The parts an instruction names as its own destinations (R22 to R32, R113). `PC`, the fault latch and the driver's side,
which any instruction may change, are left out. -/
def Writes : Instr → Part → Prop
  | .cls, p => (∃ j, p = .cell j) ∨ p = .redraw
  | .ret, p => p = .depth
  | .call _, p => p = .depth ∨ ∃ j, p = .slot j
  | .jp _, _ | .jpV0 _, _ | .seImm _ _, _ | .sneImm _ _, _ | .seReg _ _, _ | .sneReg _ _, _ | .skp _, _ | .sknp _, _ =>
    False
  | .ldImm x _, p | .addImm x _, p | .ldReg x _, p | .orReg x _, p | .andReg x _, p | .xorReg x _, p | .rnd x _, p
  | .ldVxDT x, p | .ldVxK x, p => p = .reg x
  | .addReg x _, p | .subReg x _, p | .subn x _, p | .shr x _, p | .shl x _, p => p = .reg vf ∨ p = .reg x
  | .drw _ _ _, p => p = .reg vf ∨ (∃ j, p = .cell j) ∨ p = .redraw
  | .ldDTVx _, p => p = .delay
  | .ldSTVx _, p => p = .sound
  | .ldI _, p | .addI _, p | .ldF _, p => p = .index
  | .ldB _, p | .storeRegs _, p => ∃ a, p = .byte a
  | .loadRegs x, p => ∃ r, r ≤ x ∧ p = .reg r

/-- The parts an instruction may change: its destinations, `PC`, the fault latch and the driver's side. -/
def MayChange (i : Instr) (p : Part) : Prop := Writes i p ∨ p = .pc ∨ p = .fault ∨ p = .driver

/-- A meaning that answers its working copy with only its destinations or the program counter changed. -/
theorem unchangedBut_of_advance {i : Instr} {s t : State} (h : UnchangedBut (fun p => Writes i p ∨ p = .pc) s.advance t) :
    UnchangedBut (MayChange i) s t := by
  refine ((unchangedBut_advance s).trans h).mono ?_
  rintro p (hp | hp | hp)
  · exact .inr (.inl hp)
  · exact .inl hp
  · exact .inr (.inl hp)

theorem unchangedBut_of_writes {i : Instr} {s t : State} (h : UnchangedBut (Writes i) s.advance t) :
    UnchangedBut (MayChange i) s t :=
  unchangedBut_of_advance (h.mono fun _ => .inl)

theorem unchangedBut_of_pc {i : Instr} {s t : State} (h : UnchangedBut (· = .pc) s.advance t) :
    UnchangedBut (MayChange i) s t :=
  unchangedBut_of_advance (h.mono fun _ => .inr)

theorem unchangedBut_of_fault (i : Instr) (s : State) (k : FaultKind) :
    UnchangedBut (MayChange i) s { s with fault := some k } :=
  (unchangedBut_raise s k).mono fun _ hp => .inr (.inr (.inl hp))

/-! ### The ends of a meaning that can fault -/

/-- The two ends of a meaning that checks its addresses first. -/
theorem next_of_guard {s t u : State} {c : Bool} {k : FaultKind} (h : (if c then .next u else s.raise k : Result) = .next t) :
    (c = true ∧ t = u) ∨ t = { s with fault := some k } := by
  cases c
  · exact .inr (Host.Outcome.next.inj h).symm
  · exact .inl ⟨rfl, (Host.Outcome.next.inj h).symm⟩

theorem execRet_of_empty {s : State} (h : s.sp.val = 0) : execRet s = s.raise .stackUnderflow := by
  simp [execRet, State.pop, h]

theorem execRet_of_nonempty {s : State} (h : s.sp.val ≠ 0) :
    execRet s = .next { s with pc := s.stack[s.sp.val - 1], sp := ⟨s.sp.val - 1, by omega⟩ } := by
  simp [execRet, State.pop, h, State.setPc, State.advance]

theorem execCall_of_full {s : State} (nnn : Addr12) (h : ¬ s.sp.val < 16) :
    execCall nnn s = s.raise .stackOverflow := by
  simp [execCall, State.push, h]

theorem execCall_of_room {s : State} (nnn : Addr12) (h : s.sp.val < 16) :
    execCall nnn s = .next
      { s with pc := addrWord nnn, stack := s.stack.set s.sp.val (s.pc + 2), sp := ⟨s.sp.val + 1, by omega⟩ } := by
  simp [execCall, State.push, h, State.setPc, State.advance]

/-- Everything RET can do (R121): fault, or pop the return address into `PC`. -/
theorem execRet_cases {s t : State} (h : execRet s = .next t) :
    t = { s with fault := some .stackUnderflow } ∨
    ∃ _ : s.sp.val ≠ 0, t = { s with pc := s.stack[s.sp.val - 1], sp := ⟨s.sp.val - 1, by omega⟩ } := by
  by_cases hsp : s.sp.val = 0
  · exact .inl (Host.Outcome.next.inj ((execRet_of_empty hsp).symm.trans h)).symm
  · exact .inr ⟨hsp, (Host.Outcome.next.inj ((execRet_of_nonempty hsp).symm.trans h)).symm⟩

/-- Everything CALL can do (R123): fault, or push the address of the instruction after it and jump. -/
theorem execCall_cases {nnn : Addr12} {s t : State} (h : execCall nnn s = .next t) :
    t = { s with fault := some .stackOverflow } ∨
    ∃ _ : s.sp.val < 16, t =
      { s with pc := addrWord nnn, stack := s.stack.set s.sp.val (s.pc + 2), sp := ⟨s.sp.val + 1, by omega⟩ } := by
  by_cases hsp : s.sp.val < 16
  · exact .inr ⟨hsp, (Host.Outcome.next.inj ((execCall_of_room nnn hsp).symm.trans h)).symm⟩
  · exact .inl (Host.Outcome.next.inj ((execCall_of_full nnn hsp).symm.trans h)).symm

/-- Everything LD Vx, K can do (R185): fault, take the latched key, or wait. -/
theorem execLdVxK_cases {x : RegIdx} {s t : State} (h : execLdVxK x s = .next t) :
    t = { s with fault := some .invalidOpcode } ∨ (∃ v, t = s.advance.setReg x v) ∨ t = s.advance.setPc s.pc := by
  unfold execLdVxK at h
  split at h
  · exact .inl (Host.Outcome.next.inj h).symm
  · exact .inr (.inl ⟨_, (Host.Outcome.next.inj h).symm⟩)
  · exact .inr (.inr (Host.Outcome.next.inj h).symm)

/-! ### The frame of every instruction -/

/-- The frame of every instruction (R113): its destinations, `PC`, the fault latch and the driver's side may change, and
nothing else does. -/
theorem exec_unchangedBut {i : Instr} {s t : State} (h : exec i s = .next t) : UnchangedBut (MayChange i) s t := by
  cases i
  case ret =>
    rcases execRet_cases h with rfl | ⟨-, rfl⟩
    · exact unchangedBut_of_fault _ s _
    · exact unchangedBut_of_advance ((unchangedBut_depth s.advance _).trans (unchangedBut_setPc _ _))
  case call nnn =>
    rcases execCall_cases h with rfl | ⟨-, rfl⟩
    · exact unchangedBut_of_fault _ s _
    · exact unchangedBut_of_advance ((unchangedBut_stack s.advance _ _).trans (unchangedBut_setPc _ _))
  case ldVxK x =>
    rcases execLdVxK_cases h with rfl | ⟨v, rfl⟩ | rfl
    · exact unchangedBut_of_fault _ s _
    · exact unchangedBut_of_writes (unchangedBut_setReg _ x v)
    · exact unchangedBut_of_pc (unchangedBut_setPc _ _)
  case drw x y n =>
    rcases next_of_guard h with ⟨-, rfl⟩ | rfl
    · exact unchangedBut_of_writes ((unchangedBut_setReg _ vf _).trans (unchangedBut_display _ _ true))
    · exact unchangedBut_of_fault _ s _
  case ldB | storeRegs =>
    rcases next_of_guard h with ⟨-, rfl⟩ | rfl
    · exact unchangedBut_of_writes (unchangedBut_writeBytes _ _ _)
    · exact unchangedBut_of_fault _ s _
  case loadRegs x =>
    rcases next_of_guard h with ⟨-, rfl⟩ | rfl
    · exact unchangedBut_of_writes (unchangedBut_loadRegsFrom _ x)
    · exact unchangedBut_of_fault _ s _
  all_goals obtain rfl := Host.Outcome.next.inj h
  case cls => exact unchangedBut_of_writes (unchangedBut_display _ _ true)
  case jp | jpV0 => exact unchangedBut_of_pc (unchangedBut_setPc _ _)
  case seImm | sneImm | seReg | sneReg | skp | sknp => exact unchangedBut_of_pc (unchangedBut_skipIf _ _)
  case ldImm | addImm | ldReg | orReg | andReg | xorReg | ldVxDT =>
    exact unchangedBut_of_writes (unchangedBut_setReg _ _ _)
  case addReg | subReg | subn | shr | shl => exact unchangedBut_of_writes (unchangedBut_writeFlagThenResult _ _ _ _)
  case rnd x nn =>
    refine (unchangedBut_rnd s x _).mono ?_
    rintro p (hp | hp | hp)
    · exact .inr (.inl hp)
    · exact .inl hp
    · exact .inr (.inr (.inr hp))
  case ldDTVx => exact unchangedBut_of_writes (unchangedBut_delay _ _)
  case ldSTVx => exact unchangedBut_of_writes (unchangedBut_sound _ _)
  case ldI | addI | ldF => exact unchangedBut_of_writes (unchangedBut_index _ _)

/-- A part other than `PC`, the fault latch and the driver's side changes only under an instruction that writes it. -/
theorem writes_of_changed {i : Instr} {s t : State} {p : Part} (h : exec i s = .next t) (hp : ¬ Part.Same s t p)
    (hpart : p ≠ .pc ∧ p ≠ .fault ∧ p ≠ .driver := by simp) : Writes i p := by
  by_contra hw
  exact hp (exec_unchangedBut h p (by simp [MayChange, hw, hpart]))

/-! ### Who writes what -/

theorem vf_le_iff (x : RegIdx) : vf ≤ x ↔ x = vf := by
  revert x; decide

theorem writes_vf_iff (i : Instr) : Writes i (.reg vf) ↔
    (∃ x y, i = .addReg x y ∨ i = .subReg x y ∨ i = .subn x y ∨ i = .shr x y ∨ i = .shl x y) ∨
    (∃ x y n, i = .drw x y n) ∨
    (∃ nn, i = .ldImm vf nn ∨ i = .addImm vf nn ∨ i = .rnd vf nn) ∨
    (∃ y, i = .ldReg vf y ∨ i = .orReg vf y ∨ i = .andReg vf y ∨ i = .xorReg vf y) ∨
    i = .ldVxDT vf ∨ i = .ldVxK vf ∨ i = .loadRegs vf := by
  cases i <;> simp [Writes, vf_le_iff, eq_comm]

theorem writes_index_iff (i : Instr) :
    Writes i .index ↔ (∃ nnn, i = .ldI nnn) ∨ (∃ x, i = .addI x) ∨ (∃ x, i = .ldF x) := by
  cases i <;> simp [Writes]

theorem writes_depth_iff (i : Instr) : Writes i .depth ↔ i = .ret ∨ ∃ nnn, i = .call nnn := by
  cases i <;> simp [Writes]

theorem writes_slot_iff (i : Instr) (j : Fin 16) : Writes i (.slot j) ↔ ∃ nnn, i = .call nnn := by
  cases i <;> simp [Writes]

theorem writes_byte_iff (i : Instr) (a : Nat) :
    Writes i (.byte a) ↔ (∃ x, i = .ldB x) ∨ ∃ x, i = .storeRegs x := by
  cases i <;> simp [Writes]

theorem writes_cell_iff (i : Instr) (j : Nat) : Writes i (.cell j) ↔ i = .cls ∨ ∃ x y n, i = .drw x y n := by
  cases i <;> simp [Writes]

/-! ### What every instruction keeps, and what only the named ones write -/

theorem exec_config {i : Instr} {s t : State} (h : exec i s = .next t) : t.config = s.config :=
  exec_unchangedBut h .config (by cases i <;> simp [MayChange, Writes])

theorem exec_sp {i : Instr} {s t : State} (h : exec i s = .next t) (hi : ¬ (i = .ret ∨ ∃ nnn, i = .call nnn)) :
    t.sp = s.sp := by
  by_contra hsp
  exact hi ((writes_depth_iff i).mp (writes_of_changed (p := .depth) h hsp))

theorem exec_stack {i : Instr} {s t : State} (h : exec i s = .next t) (hi : ¬ ∃ nnn, i = .call nnn) :
    t.stack = s.stack := by
  refine Vector.ext fun j hj => ?_
  by_contra hne
  exact hi ((writes_slot_iff i ⟨j, hj⟩).mp (writes_of_changed (p := .slot ⟨j, hj⟩) h hne))

/-- Settles O17: VF can change only under an instruction that has it among its destinations. -/
theorem flagRegisterWriters : Obligations.FlagRegisterWriters := by
  intro i s t h hvf
  exact (writes_vf_iff i).mp (writes_of_changed (p := .reg vf) h hvf)

/-- Settles O18: each of the four parts changes only under an instruction that has it among its destinations. -/
theorem onlyTheNamedInstructionsWrite : Obligations.OnlyTheNamedInstructionsWrite := by
  intro i s t h
  refine ⟨fun hi => ?_, fun hst => ?_, fun a ha => ?_, fun j hj => ?_⟩
  · exact (writes_index_iff i).mp (writes_of_changed (p := .index) h hi)
  · by_contra hi
    rcases hst with hsp | hstack
    · exact hsp (exec_sp h hi)
    · exact hstack (exec_stack h fun hcall => hi (.inr hcall))
  · exact (writes_byte_iff i a).mp (writes_of_changed (p := .byte a) h ha)
  · exact (writes_cell_iff i j).mp (writes_of_changed (p := .cell j) h hj)

/-! ### Memory, the program counter and the stack after an instruction -/

/-- An instruction keeps the canonical form of memory: it writes none of it, or a string of bytes that its own check has found
to lie inside it (R53). -/
theorem exec_wf {i : Instr} {s t : State} (h : exec i s = .next t) (hwf : Memory.wf s.config.glyphs s.mem = true) :
    Memory.wf s.config.glyphs t.mem = true := by
  cases i
  case ldB x =>
    rcases next_of_guard h with ⟨hm, rfl⟩ | rfl
    · have hlast : s.indexed 0 + 2 ≤ 4095 := (inMemory_iff _).mp hm
      refine State.writeBytes_wf (s := s.advance) ?_ hwf
      simp only [decimalDigits, List.length_cons, List.length_nil, memSize]
      omega
    · exact hwf
  case storeRegs x =>
    rcases next_of_guard h with ⟨hm, rfl⟩ | rfl
    · have hlast : s.indexed 0 + x.val ≤ 4095 := (inMemory_iff _).mp hm
      refine State.writeBytes_wf (s := s.advance) ?_ hwf
      rw [List.length_map, length_regsUpTo, memSize]
      omega
    · exact hwf
  case ret =>
    rcases execRet_cases h with rfl | ⟨-, rfl⟩ <;> exact hwf
  case call nnn =>
    rcases execCall_cases h with rfl | ⟨-, rfl⟩ <;> exact hwf
  case ldVxK x =>
    rcases execLdVxK_cases h with rfl | ⟨v, rfl⟩ | rfl <;> exact hwf
  case drw x y n =>
    rcases next_of_guard h with ⟨-, rfl⟩ | rfl <;> exact hwf
  case loadRegs x =>
    rcases next_of_guard h with ⟨-, rfl⟩ | rfl
    · rw [loadRegsFrom_mem]
      exact hwf
    · exact hwf
  all_goals obtain rfl := Host.Outcome.next.inj h
  case seImm | sneImm | seReg | sneReg | skp | sknp =>
    rw [State.skipIf_eq]
    exact hwf
  all_goals exact hwf

/-- The addresses that `PC` can hold after an instruction that began in `s` (R111, R120 to R128, R185, R206). -/
inductive NextPc (s : State) : Word → Prop where
  | stay : NextPc s s.pc
  | straight : NextPc s (s.pc + 2)
  | skip : NextPc s (s.pc + 2 + 2)
  | jump (nnn : Addr12) : NextPc s (addrWord nnn)
  | jumpV0 (nnn : Addr12) : NextPc s (addrWord nnn + byteWord (s.reg 0))
  | back (h : s.sp.val ≠ 0) : NextPc s (s.stack[s.sp.val - 1])

theorem nextPc_skipIf (s : State) (c : Bool) : NextPc s (s.advance.skipIf c).pc := by
  cases c
  · exact .straight
  · exact .skip

/-- Where an instruction leaves `PC`. -/
theorem exec_nextPc {i : Instr} {s t : State} (h : exec i s = .next t) : NextPc s t.pc := by
  cases i
  case ret =>
    rcases execRet_cases h with rfl | ⟨hsp, rfl⟩
    · exact .stay
    · exact .back hsp
  case call nnn =>
    rcases execCall_cases h with rfl | ⟨-, rfl⟩
    · exact .stay
    · exact .jump nnn
  case ldVxK x =>
    rcases execLdVxK_cases h with rfl | ⟨v, rfl⟩ | rfl
    · exact .stay
    · exact .straight
    · exact .stay
  case drw x y n =>
    rcases next_of_guard h with ⟨-, rfl⟩ | rfl
    · exact .straight
    · exact .stay
  case ldB | storeRegs =>
    rcases next_of_guard h with ⟨-, rfl⟩ | rfl
    · rw [State.writeBytes_pc]
      exact .straight
    · exact .stay
  case loadRegs x =>
    rcases next_of_guard h with ⟨-, rfl⟩ | rfl
    · rw [loadRegsFrom_pc]
      exact .straight
    · exact .stay
  all_goals obtain rfl := Host.Outcome.next.inj h
  case jp nnn => exact .jump nnn
  case jpV0 nnn => exact .jumpV0 nnn
  case seImm | sneImm | seReg | sneReg | skp | sknp => exact nextPc_skipIf s _
  all_goals exact .straight

theorem toNat_addrWord (nnn : Addr12) : (addrWord nnn).toNat = nnn.toNat :=
  BitVec.toNat_setWidth_of_le (by decide)

theorem toNat_byteWord (v : Byte) : (byteWord v).toNat = v.toNat :=
  BitVec.toNat_setWidth_of_le (by decide)

/-- Every live stack slot holds at most 4096 (R37). -/
def State.LiveBounded (s : State) : Prop := ∀ j : Fin 16, j.val < s.sp.val → (s.stack[j]).toNat ≤ 4096

/-- The bound of R37 on `PC`, reached by JP V0 alone: 4095 + 255. -/
theorem NextPc.le {s : State} {a : Word} (h : NextPc s a) (hpc : s.pc.toNat ≤ 4094) (hlive : s.LiveBounded) :
    a.toNat ≤ 4350 := by
  cases h with
  | stay => omega
  | straight => bv_omega
  | skip => bv_omega
  | jump nnn =>
    rw [toNat_addrWord]
    omega
  | jumpV0 nnn =>
    rw [BitVec.toNat_add, toNat_addrWord, toNat_byteWord]
    omega
  | back hsp =>
    have hslot := hlive ⟨s.sp.val - 1, by omega⟩ (by simp; omega)
    exact hslot.trans (by decide)

/-- An instruction keeps the bound on the live slots: RET makes one dead, and CALL pushes the address after the instruction. -/
theorem exec_liveBounded {i : Instr} {s t : State} (h : exec i s = .next t) (hpc : s.pc.toNat ≤ 4094)
    (hlive : s.LiveBounded) : t.LiveBounded := by
  cases i
  case ret =>
    rcases execRet_cases h with rfl | ⟨hsp, rfl⟩
    · exact hlive
    · intro j hj
      exact hlive j (Nat.lt_of_lt_of_le hj (Nat.sub_le _ _))
  case call nnn =>
    rcases execCall_cases h with rfl | ⟨hlt, rfl⟩
    · exact hlive
    · intro j hj
      have hj' : j.val < s.sp.val + 1 := hj
      simp only [Fin.getElem_fin, Vector.getElem_set]
      split
      · bv_omega
      · exact hlive j (by omega)
  all_goals
    intro j hj
    rw [exec_sp h (by simp)] at hj
    rw [exec_stack h (by simp)]
    exact hlive j hj

/-! ### What a step can do, whatever the event -/

/-- The states a step from `s` can answer (R110, R210): one with at most the timers, the key latch, `REDRAW`, the fault latch and
the driver's side new, the reset state, `s` with a program loaded, or what an instruction fetched below 4095 leaves. -/
inductive StepEffect (s : State) : State → Prop where
  | engines (dt st : Byte) (key : Option Nibble) (redraw : Bool) (fault : Option FaultKind) (d : Driver) :
    StepEffect s { s with dt := dt, st := st, key := key, redraw := redraw, fault := fault, driver := d }
  | reset (d : Driver) : StepEffect s { State.reset with config := s.config, driver := d }
  | load (rom : List Byte) (d : Driver) (hlen : rom.length ≤ romMax) :
    StepEffect s { s.writeBytes progBase rom with driver := d }
  | instruction {i : Instr} {t : State} (d : Driver) (hpc : s.pc.toNat ≤ 4094) (h : exec i (s.withDriver d) = .next t) :
    StepEffect s t

theorem runInstruction_effect {s t : State} {d : Driver} (h : runInstruction (s.withDriver d) = .next t) :
    StepEffect s t := by
  rcases runInstruction_cases (s.withDriver d) with ⟨-, hr⟩ | ⟨w, e, -, -, hr⟩ | ⟨w, i, hw, -, hr⟩
  · rw [hr] at h
    obtain rfl := Host.Outcome.next.inj h
    exact .engines _ _ _ _ _ _
  · rw [hr] at h
    obtain rfl := Host.Outcome.next.inj h
    exact .engines _ _ _ _ _ _
  · rw [hr] at h
    have hpc : ¬ 4094 < s.pc.toNat := fun hlt => by simp [((s.withDriver d).fetch_eq_none_iff).mpr hlt] at hw
    exact .instruction d (Nat.le_of_not_lt hpc) h

/-- Everything a Load that answers can do (R243): leave all but the fault latch, or write the program. -/
theorem loadEvent_cases {s t : State} {rom : List Byte} (h : s.loadEvent rom = .next t) :
    (∃ f, t = { s with fault := f }) ∨
    (rom.length ≤ romMax ∧ ∃ d, t = { s.writeBytes progBase rom with driver := d }) := by
  unfold State.loadEvent at h
  split at h
  · exact .inl ⟨s.fault, (Host.Outcome.next.inj h).symm⟩
  · split at h
    · cases h
    · split at h
      · exact .inl ⟨some .romTooLarge, (Host.Outcome.next.inj h).symm⟩
      · exact .inr ⟨Nat.le_of_not_lt ‹_›, _, (Host.Outcome.next.inj h).symm⟩

theorem loadEvent_effect {s t : State} {d : Driver} {rom : List Byte}
    (h : (s.withDriver d).loadEvent rom = .next t) : StepEffect s t := by
  rcases loadEvent_cases h with ⟨f, rfl⟩ | ⟨hlen, d', rfl⟩
  · exact .engines _ _ _ _ _ _
  · rw [State.withDriver_writeBytes]
    exact .load rom d' hlen

theorem stepEvent_effect {s t : State} {d : Driver} {r : Option Byte} (h : stepEvent r (s.withDriver d) = .next t) :
    StepEffect s t := by
  unfold stepEvent at h
  split at h
  · obtain rfl := Host.Outcome.next.inj h
    exact .engines _ _ _ _ _ _
  · exact runInstruction_effect (d := { d with rnd := r, loadable := false }) h

theorem applyEvent_effect {e : Event} {s t : State} {d : Driver} (h : applyEvent e (s.withDriver d) = .next t) :
    StepEffect s t := by
  cases e
  case load rom => exact loadEvent_effect h
  case step r => exact stepEvent_effect h
  case reset =>
    obtain rfl := Host.Outcome.next.inj h
    exact .reset _
  all_goals
    obtain rfl := Host.Outcome.next.inj h
    exact .engines _ _ _ _ _ _

/-- Everything a step that answers a next state can do. -/
theorem step_effect {s t : State} (h : step s = .next t) : StepEffect s t := by
  rcases step_cases s with ⟨k, -, -, hs⟩ | ⟨-, -, hs⟩ | ⟨e, rest, -, hs⟩
  · rw [hs] at h
    cases h
  · exact runInstruction_effect (d := { s.driver with rnd := none, loadable := false }) (hs.symm.trans h)
  · exact applyEvent_effect (d := { s.driver with schedule := rest }) (hs.symm.trans h)

/-! ### The invariant and the configuration -/

/-- Settles O14: reset lists no memory byte, starts at 0x200 and has no live slot. -/
theorem resetMeetsTheInvariant : Obligations.ResetMeetsTheInvariant :=
  fun c _ => ⟨Memory.wf_reset c.glyphs, (by decide : State.reset.pc.toNat ≤ 4350),
    fun j hj => absurd hj (Nat.not_lt_zero j.val)⟩

theorem exec_inv {i : Instr} {s t : State} (h : exec i s = .next t) (hpc : s.pc.toNat ≤ 4094) (hs : s.Inv) : t.Inv := by
  obtain ⟨hwf, -, hlive⟩ := hs
  refine ⟨?_, (exec_nextPc h).le hpc hlive, exec_liveBounded h hpc hlive⟩
  rw [exec_config h]
  exact exec_wf h hwf

theorem inv_loaded {s : State} {rom : List Byte} (hlen : rom.length ≤ romMax) (hs : s.Inv) (d : Driver) :
    State.Inv { s.writeBytes progBase rom with driver := d } := by
  obtain ⟨hwf, hpc, hlive⟩ := hs
  rw [s.writeBytes_eq]
  exact ⟨State.writeBytes_wf (Nat.add_le_add_left hlen progBase) hwf, hpc, hlive⟩

/-- Settles O13: each effect a step can have keeps the invariant; the one that moves `PC` and the stack is an instruction. -/
theorem stepKeepsTheInvariant : Obligations.StepKeepsTheInvariant := by
  intro s t hs h
  cases step_effect h with
  | engines => exact hs
  | reset d => exact resetMeetsTheInvariant s.config d
  | load rom d hlen => exact inv_loaded hlen hs d
  | instruction d hpc hi => exact exec_inv hi hpc hs

/-- Settles O19: Reset and Load keep the configuration, and no instruction has it among its destinations. -/
theorem configurationNeverChanges : Obligations.ConfigurationNeverChanges := by
  intro s t h
  cases step_effect h with
  | engines | reset => rfl
  | load rom => exact s.writeBytes_config progBase rom
  | instruction d _ hi => exact (exec_config hi).trans (s.withDriver_config d)

/-! ### A faulted machine (R207, R221) -/

theorem stepEvent_faulted {s : State} {k : FaultKind} (h : s.fault = some k) (r : Option Byte) :
    stepEvent r s = .next s := by
  simp [stepEvent, h]

theorem loadEvent_faulted {s : State} {k : FaultKind} (h : s.fault = some k) (rom : List Byte) :
    s.loadEvent rom = .next s := by
  simp [State.loadEvent, h]

theorem unchangedBut_tick (s : State) : UnchangedBut (fun p => p = .delay ∨ p = .sound) s s.tick :=
  (unchangedBut_delay s _).trans (unchangedBut_sound { s with dt := countDown s.dt } _)

/-- Settles O15: Step and Load do nothing, and each of the other events has a frame of its own. -/
theorem faultFreezesTheProgramState : Obligations.FaultFreezesTheProgramState := by
  intro s t e k hf he h
  cases e
  case reset => exact absurd rfl he
  case load rom =>
    obtain rfl := Host.Outcome.next.inj ((loadEvent_faulted hf rom).symm.trans h)
    exact ⟨hf, .refl _ s⟩
  case step r =>
    obtain rfl := Host.Outcome.next.inj ((stepEvent_faulted hf (some r)).symm.trans h)
    exact ⟨hf, .refl _ s⟩
  all_goals
    obtain rfl := Host.Outcome.next.inj h
    refine ⟨hf, ?_⟩
  case tick => exact (unchangedBut_tick s).mono fun p hp => by tauto
  case keyPress k => exact (unchangedBut_key s _).mono fun p hp => by tauto
  case keyRelease => exact (unchangedBut_key s _).mono fun p hp => by tauto
  case ackRedraw => exact (unchangedBut_redraw s _).mono fun p hp => by tauto

/-! ### Outputs (R34, R114) -/

theorem State.tone_iff (s : State) : s.tone = true ↔ s.st.toNat > 0 := decide_eq_true_iff

theorem State.faultOut_of_none {s : State} (h : s.fault = none) : s.faultOut = 0 := by
  rw [State.faultOut, h]

theorem State.faultOut_of_some {s : State} {k : FaultKind} (h : s.fault = some k) : s.faultOut = k.code := by
  rw [State.faultOut, h]

theorem State.stepResponse_of_none {s : State} (h : s.fault = none) : s.stepResponse = .ok s.redrawOut s.tone := by
  rw [State.stepResponse, h]

theorem State.stepResponse_of_some {s : State} {k : FaultKind} (h : s.fault = some k) : s.stepResponse = .fault k := by
  rw [State.stepResponse, h]

/-- Settles O53: the outputs are the parts they are read from, and the latch's output is the code of its kind (R200). -/
theorem outputsAreReadFromTheState : Obligations.OutputsAreReadFromTheState := fun s =>
  ⟨fun _ => rfl, rfl, s.tone_iff, State.faultOut_of_none, State.faultOut_of_some, State.faultOut_of_some,
    State.faultOut_of_some, State.faultOut_of_some, State.faultOut_of_some, fun _ => State.stepResponse_of_some,
    State.stepResponse_of_none⟩

/-! ### The stack replaced: every operation but a push and a pop commutes with it (R25) -/

/-- The state with other words in its stack slots. -/
def State.withStack (s : State) (k : Vector Word 16) : State := { s with stack := k }

section WithStack

variable (s : State) (k : Vector Word 16)

@[simp] theorem State.withStack_advance : (s.withStack k).advance = s.advance.withStack k := rfl

@[simp] theorem State.withStack_skipIf (c : Bool) : (s.withStack k).skipIf c = (s.skipIf c).withStack k := by
  cases c <;> rfl

@[simp] theorem State.withStack_writeBytes (a : Nat) (vs : List Byte) :
    (s.withStack k).writeBytes a vs = (s.writeBytes a vs).withStack k := by
  induction vs generalizing s a with
  | nil => rfl
  | cons v vs ih => exact ih (s.writeByte a v) (a + 1)

@[simp] theorem withStack_loadRegsFrom (rs : List RegIdx) :
    loadRegsFrom (s.withStack k) rs = (loadRegsFrom s rs).withStack k := by
  induction rs generalizing s with
  | nil => rfl
  | cons r rs ih => exact ih (s.setReg r (s.readByte (s.indexed r.val)))

end WithStack

/-- A meaning neither reads nor changes the stack slots. -/
def StackBlind (f : State → Result) : Prop :=
  ∀ (s : State) (k : Vector Word 16), f (s.withStack k) = mapNext (fun t => t.withStack k) (f s)

theorem stackBlind_of_guard {c : State → Bool} {u : State → State} {e : FaultKind}
    (hc : ∀ s k, c (s.withStack k) = c s) (hu : ∀ s k, u (s.withStack k) = (u s).withStack k) :
    StackBlind fun s => if c s then .next (u s) else s.raise e := by
  intro s k
  simp only [hc, hu]
  cases c s <;> rfl

theorem stackBlind_of_skip {c : State → Bool} (hc : ∀ s k, c (s.withStack k) = c s) :
    StackBlind fun s => .next (s.advance.skipIf (c s)) := by
  intro s k
  simp only [hc, State.withStack_advance, State.withStack_skipIf, mapNext]

theorem stackBlind_execLdVxK (x : RegIdx) : StackBlind (execLdVxK x) := by
  intro s k
  have hk : (s.withStack k).key = s.key := rfl
  have hc : (s.withStack k).config = s.config := rfl
  simp only [execLdVxK, hk, hc]
  cases s.config.keyWait <;> cases s.key <;> rfl

/-- Every instruction but CALL and RET is blind to the stack slots. -/
theorem stackBlind_exec {i : Instr} (hi : ¬ (i = .ret ∨ ∃ nnn, i = .call nnn)) : StackBlind (exec i) := by
  cases i
  case ret => exact absurd (.inl rfl) hi
  case call nnn => exact absurd (.inr ⟨nnn, rfl⟩) hi
  case ldVxK x => exact stackBlind_execLdVxK x
  case seImm | sneImm | seReg | sneReg | skp | sknp => exact stackBlind_of_skip fun _ _ => rfl
  case drw => exact stackBlind_of_guard (fun _ _ => rfl) fun _ _ => rfl
  case ldB | storeRegs => exact stackBlind_of_guard (fun _ _ => rfl) fun s k => s.advance.withStack_writeBytes k _ _
  case loadRegs => exact stackBlind_of_guard (fun _ _ => rfl) fun s k => withStack_loadRegsFrom s.advance k _
  all_goals exact fun _ _ => rfl

/-! ### Dead slots -/

/-- `k` holds what the live slots of `s` hold; in its other slots it may hold anything. -/
def AgreesOnLive (s : State) (k : Vector Word 16) : Prop := ∀ j : Fin 16, j.val < s.sp.val → k[j] = s.stack[j]

/-- A meaning does not observe dead slots: with other words in them it answers the same, but for words in slots that are dead
afterwards. -/
def DeadBlind (f : State → Result) : Prop :=
  ∀ (s : State) (k : Vector Word 16) (t : State), AgreesOnLive s k → f s = .next t →
    ∃ k', f (s.withStack k) = .next (t.withStack k') ∧ AgreesOnLive t k'

/-- A meaning that is blind to the slots and leaves the depth observes no dead slot. -/
theorem StackBlind.deadBlind {f : State → Result} (hf : StackBlind f)
    (hsp : ∀ s t, f s = .next t → t.sp = s.sp) : DeadBlind f := by
  intro s k t hk h
  have hs : f s = mapNext (fun u => u.withStack s.stack) (f s) := hf s s.stack
  rw [h] at hs
  have htt : t = t.withStack s.stack := Host.Outcome.next.inj hs
  have ht : t.stack = s.stack := by
    rw [htt]
    rfl
  refine ⟨k, (hf s k).trans (by rw [h]; rfl), fun j hj => ?_⟩
  rw [hsp s t h] at hj
  simp only [ht]
  exact hk j hj

theorem deadBlind_raise (e : FaultKind) : DeadBlind fun s => s.raise e :=
  StackBlind.deadBlind (fun _ _ => rfl) fun s t h => by cases h; rfl

/-- RET reads the top live slot, and the slots below it stay live. -/
theorem deadBlind_execRet : DeadBlind execRet := by
  intro s k t hk h
  by_cases hsp : s.sp.val = 0
  · rw [execRet_of_empty hsp] at h
    rw [execRet_of_empty (s := s.withStack k) hsp]
    exact deadBlind_raise _ s k t hk h
  · rw [execRet_of_nonempty hsp] at h
    obtain rfl := Host.Outcome.next.inj h
    have htop : k[s.sp.val - 1] = s.stack[s.sp.val - 1] := hk ⟨s.sp.val - 1, by omega⟩ (by simp; omega)
    refine ⟨k, ?_, fun j hj => hk j (Nat.lt_of_lt_of_le hj (Nat.sub_le _ _))⟩
    rw [execRet_of_nonempty (s := s.withStack k) hsp, ← htop]
    rfl

/-- CALL writes the first dead slot, which it makes live, and reads none. -/
theorem deadBlind_execCall (nnn : Addr12) : DeadBlind (execCall nnn) := by
  intro s k t hk h
  by_cases hsp : s.sp.val < 16
  · rw [execCall_of_room nnn hsp] at h
    obtain rfl := Host.Outcome.next.inj h
    refine ⟨k.set s.sp.val (s.pc + 2), execCall_of_room (s := s.withStack k) nnn hsp, fun j hj => ?_⟩
    have hj' : j.val < s.sp.val + 1 := hj
    simp only [Fin.getElem_fin, Vector.getElem_set]
    split
    · rfl
    · exact hk j (by omega)
  · rw [execCall_of_full nnn hsp] at h
    rw [execCall_of_full (s := s.withStack k) nnn hsp]
    exact deadBlind_raise _ s k t hk h

theorem deadBlind_exec (i : Instr) : DeadBlind (exec i) := by
  by_cases hi : i = .ret ∨ ∃ nnn, i = .call nnn
  · rcases hi with rfl | ⟨nnn, rfl⟩
    · exact deadBlind_execRet
    · exact deadBlind_execCall nnn
  · exact (stackBlind_exec hi).deadBlind fun s t h => exec_sp h hi

/-! ### Dead slots and the events -/

theorem deadBlind_runInstruction : DeadBlind runInstruction := by
  intro s k t hk
  have hfetch : (s.withStack k).fetch = s.fetch := rfl
  have hconfig : (s.withStack k).config = s.config := rfl
  simp only [runInstruction, hfetch, hconfig]
  cases s.fetch with
  | none => exact deadBlind_raise _ s k t hk
  | some w =>
    simp only
    cases decode s.config.keyWait w with
    | error _ => exact deadBlind_raise _ s k t hk
    | ok i => exact deadBlind_exec i s k t hk

theorem deadBlind_stepEvent (r : Option Byte) : DeadBlind (stepEvent r) := by
  intro s k t hk h
  cases hf : s.fault with
  | none =>
    rw [stepEvent_running hf] at h
    rw [stepEvent_running (s := s.withStack k) hf]
    exact deadBlind_runInstruction (s.beginStep r) k t hk h
  | some e =>
    obtain rfl := Host.Outcome.next.inj ((stepEvent_faulted hf r).symm.trans h)
    exact ⟨k, stepEvent_faulted (s := s.withStack k) hf r, hk⟩

theorem stackBlind_loadEvent (rom : List Byte) : StackBlind (State.loadEvent rom) := by
  intro s k
  have hfault : (s.withStack k).fault = s.fault := rfl
  have hdriver : (s.withStack k).driver = s.driver := rfl
  simp only [State.loadEvent, hfault, hdriver, State.withStack_writeBytes]
  repeat' split
  all_goals rfl

theorem loadEvent_sp {rom : List Byte} {s t : State} (h : s.loadEvent rom = .next t) : t.sp = s.sp := by
  rcases loadEvent_cases h with ⟨f, rfl⟩ | ⟨-, d, rfl⟩
  · rfl
  · exact s.writeBytes_sp progBase rom

/-- Reset empties the stack whatever it held. -/
theorem deadBlind_resetEvent : DeadBlind fun s => .next s.resetEvent := by
  intro s k t _ h
  obtain rfl := Host.Outcome.next.inj h
  exact ⟨s.resetEvent.stack, rfl, fun _ _ => rfl⟩

theorem deadBlind_applyEvent (e : Event) : DeadBlind (applyEvent e) := by
  cases e with
  | reset => exact deadBlind_resetEvent
  | load rom => exact (stackBlind_loadEvent rom).deadBlind fun _ _ => loadEvent_sp
  | step r => exact deadBlind_stepEvent (some r)
  | tick | keyPress | keyRelease | ackRedraw =>
    exact StackBlind.deadBlind (fun _ _ => rfl) fun s t h => by cases h; rfl

theorem deadBlind_step : DeadBlind step := by
  intro s k t hk h
  cases hs : s.driver.schedule with
  | cons e rest =>
    rw [step_of_scheduled hs] at h
    rw [step_of_scheduled (s := s.withStack k) hs]
    exact deadBlind_applyEvent e (s.issued rest) k t hk h
  | nil =>
    rcases step_cases s with ⟨_, -, -, hstep⟩ | ⟨-, hf, -⟩ | ⟨e, rest, hcons, -⟩
    · rw [hstep] at h
      cases h
    · rw [step_of_unscheduled hs hf] at h
      rw [step_of_unscheduled (s := s.withStack k) hs hf]
      exact deadBlind_stepEvent none s k t hk h
    · rw [hs] at hcons
      cases hcons

/-- Settles O57: every event is blind to dead slots; RET reads a live slot, CALL overwrites the slot it makes live, and nothing
else touches the stack but Reset, which empties it. -/
theorem deadStackSlotsAreUnobservable : Obligations.DeadStackSlotsAreUnobservable := by
  intro s s' hs' hlive t h
  obtain ⟨k', hstep, hk'⟩ := deadBlind_step s s'.stack t hlive h
  rw [hs']
  exact ⟨t.withStack k', hstep, rfl, hk'⟩

end Sys2Proof.Machine

namespace Sys2Proof.Machine

/-! ### Memory in canonical form is determined by its reads (R30, R50) -/

theorem Memory.wfFrom_cons_iff {g : Glyphs} {lo a : Nat} {v : Byte} {m : Memory} :
    Memory.wfFrom g lo ((a, v) :: m) = true ↔
      lo ≤ a ∧ a < memSize ∧ v ≠ Memory.unlisted g a ∧ Memory.wfFrom g (a + 1) m = true := by
  simp only [Memory.wfFrom, Bool.and_eq_true, decide_eq_true_eq, bne_iff_ne, and_assoc]

theorem Memory.lookup_cons (m : Memory) (a b : Nat) (v : Byte) :
    Memory.lookup ((a, v) :: m) b = if a = b then some v else Memory.lookup m b := rfl

/-- A byte that canonical memory lists differs from the reset contents of its address. -/
theorem Memory.ne_unlisted_of_lookup {g : Glyphs} {lo a : Nat} {v : Byte} {m : Memory}
    (h : Memory.wfFrom g lo m = true) (hv : Memory.lookup m a = some v) : v ≠ Memory.unlisted g a := by
  induction m generalizing lo with
  | nil => cases hv
  | cons c m ih =>
    obtain ⟨b, u⟩ := c
    obtain ⟨-, -, hu, hm⟩ := Memory.wfFrom_cons_iff.mp h
    rw [Memory.lookup_cons] at hv
    split at hv
    · subst a
      cases hv
      exact hu
    · exact ih hm hv

/-- A read of canonical memory tells whether, and as what, its address is listed: an unlisted one alone reads as its reset
contents. -/
theorem Memory.lookup_eq_of_read_eq {g : Glyphs} {m m' : Memory} {a : Nat} (h : Memory.wf g m = true)
    (h' : Memory.wf g m' = true) (hread : Memory.read g m a = Memory.read g m' a) :
    Memory.lookup m a = Memory.lookup m' a := by
  unfold Memory.read at hread
  cases hv : Memory.lookup m a with
  | none =>
    cases hv' : Memory.lookup m' a with
    | none => rfl
    | some v' =>
      rw [hv, hv'] at hread
      exact absurd hread.symm (Memory.ne_unlisted_of_lookup h' hv')
  | some v =>
    cases hv' : Memory.lookup m' a with
    | none =>
      rw [hv, hv'] at hread
      exact absurd hread (Memory.ne_unlisted_of_lookup h hv)
    | some v' =>
      rw [hv, hv'] at hread
      exact congrArg some hread

/-- The first entry of canonical memory has the lowest address listed. -/
theorem Memory.head_le_of_lookup {g : Glyphs} {lo a b : Nat} {u v : Byte} {m : Memory}
    (h : Memory.wfFrom g lo ((b, u) :: m) = true) (hv : Memory.lookup ((b, u) :: m) a = some v) : b ≤ a := by
  obtain ⟨-, hb, hu, hm⟩ := Memory.wfFrom_cons_iff.mp h
  by_contra hlt
  have hnone := Memory.lookup_eq_none_of_lt (Memory.wfFrom_cons_iff.mpr ⟨le_rfl, hb, hu, hm⟩) (by omega : a < b)
  rw [hnone] at hv
  cases hv

/-- Canonical memories that list the same bytes are the same list: their first entries agree, and so do the lists after them. -/
theorem Memory.ext_lookup {g : Glyphs} {lo : Nat} {m m' : Memory} (h : Memory.wfFrom g lo m = true)
    (h' : Memory.wfFrom g lo m' = true) (hl : ∀ a, Memory.lookup m a = Memory.lookup m' a) : m = m' := by
  induction m generalizing lo m' with
  | nil =>
    cases m' with
    | nil => rfl
    | cons c' m' => simpa [Memory.lookup] using hl c'.1
  | cons c m ih =>
    obtain ⟨b, u⟩ := c
    have hhead : Memory.lookup ((b, u) :: m) b = some u := by simp [Memory.lookup_cons]
    cases m' with
    | nil => simpa [Memory.lookup] using hl b
    | cons c' m' =>
      obtain ⟨b', u'⟩ := c'
      have hhead' : Memory.lookup ((b', u') :: m') b' = some u' := by simp [Memory.lookup_cons]
      obtain rfl : b = b' := le_antisymm (Memory.head_le_of_lookup h ((hl b').trans hhead'))
        (Memory.head_le_of_lookup h' ((hl b).symm.trans hhead))
      obtain rfl : u = u' := Option.some.inj (hhead.symm.trans ((hl b).trans hhead'))
      obtain ⟨-, -, -, hm⟩ := Memory.wfFrom_cons_iff.mp h
      obtain ⟨-, -, -, hm'⟩ := Memory.wfFrom_cons_iff.mp h'
      have htail : ∀ a, Memory.lookup m a = Memory.lookup m' a := fun a => by
        by_cases hab : b = a
        · rw [Memory.lookup_eq_none_of_lt hm (by omega), Memory.lookup_eq_none_of_lt hm' (by omega)]
        · simpa [Memory.lookup_cons, hab] using hl a
      rw [ih hm hm' htail]

/-- Settles O42: equal reads give equal listings, because a listed byte never equals the reset contents of its address, and a
listing in rising address order is determined by what it lists. -/
theorem canonicalMemoryIsDeterminedByReads : Obligations.CanonicalMemoryIsDeterminedByReads := by
  intro g m m' h h' hread
  exact Memory.ext_lookup h h' fun a => Memory.lookup_eq_of_read_eq h h' (hread a)

/-! ### Dumping and loading registers within memory (R164, R165) -/

theorem exec_storeRegs_of_le {x : RegIdx} {s : State} (h : s.indexed x.val ≤ 4095) :
    exec (.storeRegs x) s = .next (s.advance.writeBytes (s.indexed 0) ((regsUpTo x).map s.reg)) :=
  if_pos ((inMemory_iff _).mpr h)

theorem exec_loadRegs_of_le {x : RegIdx} {s : State} (h : s.indexed x.val ≤ 4095) :
    exec (.loadRegs x) s = .next (loadRegsFrom s.advance (regsUpTo x)) :=
  if_pos ((inMemory_iff _).mpr h)

/-- After a dump each dumped register stands at its own offset of `I`. -/
theorem readByte_of_exec_storeRegs {x r : RegIdx} {s t : State} (h : exec (.storeRegs x) s = .next t)
    (hx : s.indexed x.val ≤ 4095) (hr : r.val ≤ x.val) : t.readByte (s.indexed r.val) = s.reg r := by
  obtain rfl := Host.Outcome.next.inj ((exec_storeRegs_of_le hx).symm.trans h)
  have hrange : s.indexed 0 ≤ s.indexed r.val ∧
      s.indexed r.val < s.indexed 0 + ((regsUpTo x).map s.reg).length := by
    simp only [State.indexed_eq, List.length_map, length_regsUpTo]
    omega
  have hoffset : s.indexed r.val - s.indexed 0 = r.val := by simp [State.indexed_eq]
  have hreg : (regsUpTo x)[r.val]'(by rw [length_regsUpTo]; omega) = r := Fin.ext (getElem_regsUpTo x r.val _)
  rw [State.readByte_writeBytes, dif_pos hrange]
  simp only [hoffset, List.getElem_map, hreg]

/-- After a load each loaded register holds the byte at its own offset of `I`. -/
theorem reg_of_exec_loadRegs {x r : RegIdx} {s t : State} (h : exec (.loadRegs x) s = .next t)
    (hx : s.indexed x.val ≤ 4095) (hr : r.val ≤ x.val) : t.reg r = s.readByte (s.indexed r.val) := by
  obtain rfl := Host.Outcome.next.inj ((exec_loadRegs_of_le hx).symm.trans h)
  rw [loadRegsFrom_reg, if_pos ((mem_regsUpTo x r).mpr hr)]
  rfl

/-- Only an instruction with `I` among its destinations changes it (R23). -/
theorem exec_i {i : Instr} {s t : State} (h : exec i s = .next t) (hi : ¬ Writes i .index) : t.i = s.i := by
  by_contra hne
  exact hi (writes_of_changed (p := .index) h hne)

/-- Settles O40: the load reads at the offsets of the same `I` where the dump wrote. -/
theorem dumpThenLoadRestores : Obligations.DumpThenLoadRestores := by
  intro s t u x hx hdump hmem hconfig hi
  have hus : u.i = s.i := hi.trans (exec_i hdump (by simp [Writes]))
  have hindexed : ∀ k, u.indexed k = s.indexed k := fun k => by rw [State.indexed_eq, hus, State.indexed_eq]
  have hux : u.indexed x.val ≤ 4095 := (hindexed _).trans_le hx
  refine ⟨_, exec_loadRegs_of_le hux, fun r hr => ?_⟩
  calc _ = u.readByte (u.indexed r.val) := reg_of_exec_loadRegs (exec_loadRegs_of_le hux) hux hr
    _ = t.readByte (s.indexed r.val) := by rw [hindexed, State.readByte_of_mem hmem hconfig]
    _ = s.reg r := readByte_of_exec_storeRegs hdump hx hr

/-- Settles O41: the two bytes fetched from `I` are the dumped V0 and V1, the lower address being the high byte. -/
theorem storedWordIsFetched : Obligations.StoredWordIsFetched := by
  intro s x hx1 hx
  have hdump := exec_storeRegs_of_le hx
  refine ⟨_, hdump, ?_⟩
  have hmem : inMemory (s.indexed 1) = true := by
    rw [inMemory_iff]
    simp only [State.indexed_eq] at hx ⊢
    omega
  have hhi := readByte_of_exec_storeRegs (r := 0) hdump hx (Nat.zero_le _)
  have hlo := readByte_of_exec_storeRegs (r := 1) hdump hx hx1
  calc _ = some (wordOfBytes _ _) := if_pos hmem
    _ = some (s.reg 0 ++ s.reg 1) := congrArg some (congrArg₂ wordOfBytes hhi hlo)

end Sys2Proof.Machine

namespace Sys2Proof

/-! ### The decoder, class by class (R84) -/

/-- One case per value of a nibble: the sixteen classes of `op`, and the sub-functions of class 8. -/
theorem nibbleCases {P : Nibble → Prop} (n0 : P 0x0) (n1 : P 0x1) (n2 : P 0x2) (n3 : P 0x3) (n4 : P 0x4) (n5 : P 0x5)
    (n6 : P 0x6) (n7 : P 0x7) (n8 : P 0x8) (n9 : P 0x9) (nA : P 0xA) (nB : P 0xB) (nC : P 0xC) (nD : P 0xD) (nE : P 0xE)
    (nF : P 0xF) (f : Nibble) : P f := by
  obtain ⟨k, hk⟩ := f
  interval_cases k <;> assumption

section Classes

variable {kw : KeyWait} {w : Word}

@[simp] theorem decode_class0 (h : opField w = 0x0) :
    decode kw w = if w = 0x00E0 then .ok .cls else if w = 0x00EE then .ok .ret else .error .class0 := by
  simp [decode, h]

@[simp] theorem decode_class1 (h : opField w = 0x1) : decode kw w = .ok (.jp (nnnField w)) := by
  simp [decode, h]

@[simp] theorem decode_class2 (h : opField w = 0x2) : decode kw w = .ok (.call (nnnField w)) := by
  simp [decode, h]

@[simp] theorem decode_class3 (h : opField w = 0x3) : decode kw w = .ok (.seImm (regOf (xField w)) (nnField w)) := by
  simp [decode, h]

@[simp] theorem decode_class4 (h : opField w = 0x4) : decode kw w = .ok (.sneImm (regOf (xField w)) (nnField w)) := by
  simp [decode, h]

@[simp] theorem decode_class5 (h : opField w = 0x5) :
    decode kw w =
      if nField w = 0 then .ok (.seReg (regOf (xField w)) (regOf (yField w))) else .error .class5LowNibble := by
  simp [decode, h]

@[simp] theorem decode_class6 (h : opField w = 0x6) : decode kw w = .ok (.ldImm (regOf (xField w)) (nnField w)) := by
  simp [decode, h]

@[simp] theorem decode_class7 (h : opField w = 0x7) : decode kw w = .ok (.addImm (regOf (xField w)) (nnField w)) := by
  simp [decode, h]

@[simp] theorem decode_class8 (h : opField w = 0x8) :
    decode kw w = decodeClass8 (regOf (xField w)) (regOf (yField w)) (nField w) := by
  simp [decode, h]

@[simp] theorem decode_class9 (h : opField w = 0x9) :
    decode kw w =
      if nField w = 0 then .ok (.sneReg (regOf (xField w)) (regOf (yField w))) else .error .class9LowNibble := by
  simp [decode, h]

@[simp] theorem decode_classA (h : opField w = 0xA) : decode kw w = .ok (.ldI (nnnField w)) := by
  simp [decode, h]

@[simp] theorem decode_classB (h : opField w = 0xB) : decode kw w = .ok (.jpV0 (nnnField w)) := by
  simp [decode, h]

@[simp] theorem decode_classC (h : opField w = 0xC) : decode kw w = .ok (.rnd (regOf (xField w)) (nnField w)) := by
  simp [decode, h]

@[simp] theorem decode_classD (h : opField w = 0xD) :
    decode kw w = .ok (.drw (regOf (xField w)) (regOf (yField w)) (regOf (nField w))) := by
  simp [decode, h]

@[simp] theorem decode_classE (h : opField w = 0xE) : decode kw w = decodeClassE (regOf (xField w)) (nnField w) := by
  simp [decode, h]

@[simp] theorem decode_classF (h : opField w = 0xF) : decode kw w = decodeClassF kw (regOf (xField w)) (nnField w) := by
  simp [decode, h]

/-! ### A word is its class nibble and its other fields, in each format (R82) -/

variable {op n : Nibble} {nn : Byte}

theorem encodeA_of_fields (hop : opField w = op) : encodeA op (nnnField w) = w := by
  rw [← hop, encodeA_fields]

theorem encodeI_of_fields (hop : opField w = op) (hnn : nnField w = nn) : encodeI op (regOf (xField w)) nn = w := by
  rw [← hop, ← hnn, encodeI_fields]

theorem encodeR_of_fields (hop : opField w = op) (hn : nField w = n) :
    encodeR op (regOf (xField w)) (regOf (yField w)) n = w := by
  rw [← hop, ← hn, encodeR_fields]

end Classes

/-! ### Encode, then decode -/

/-- Every instruction is decoded from its own word, wherever the configuration has it. -/
theorem encodedAs_encode (i : Instr) : Machine.EncodedAs i (encode i) := by
  intro kw hwf
  cases i
  case cls | ret => exact decode_class0 rfl
  case ldVxK =>
    have hkw : kw = .wait := eq_of_beq hwf
    simp [encode, decodeClassF, hkw]
  case ldVxDT | ldDTVx | ldSTVx | addI | ldF | ldB | storeRegs | loadRegs => simp [encode, decodeClassF]
  case skp | sknp => simp [encode, decodeClassE]
  case ldReg | orReg | andReg | xorReg | addReg | subReg | shr | subn | shl => simp [encode, decodeClass8]
  all_goals simp [encode]

/-- Settles O1: the nibbles of a word make it again, and the decoder reads an instruction's fields back from its word. -/
theorem decodeInvertsEncode : Obligations.DecodeInvertsEncode :=
  ⟨word_of_nibbles, fun kw i => encodedAs_encode i kw⟩

/-! ### Decode, then encode -/

theorem encode_of_decodeClass8 {x y : RegIdx} {n : Nibble} {i : Instr} (kw : KeyWait)
    (h : decodeClass8 x y n = .ok i) : encode i = encodeR 0x8 x y n ∧ i.wellFormed kw = true := by
  cases n using nibbleCases
  case n8 | n9 | nA | nB | nC | nD | nF => cases h
  all_goals
    cases h
    exact ⟨rfl, rfl⟩

theorem encode_of_decodeClassE {x : RegIdx} {nn : Byte} {i : Instr} (kw : KeyWait) (h : decodeClassE x nn = .ok i) :
    encode i = encodeI 0xE x nn ∧ i.wellFormed kw = true := by
  unfold decodeClassE at h
  split_ifs at h
  all_goals
    cases h
    subst nn
    exact ⟨rfl, rfl⟩

theorem encode_of_decodeClassF {kw : KeyWait} {x : RegIdx} {nn : Byte} {i : Instr}
    (h : decodeClassF kw x nn = .ok i) : encode i = encodeI 0xF x nn ∧ i.wellFormed kw = true := by
  unfold decodeClassF at h
  split_ifs at h
  all_goals
    cases h
    subst nn
    simp [encode, Instr.wellFormed, *]

/-- Everything the decoder can answer: an instruction of the configuration whose encoding is the word. -/
theorem encode_of_decode {kw : KeyWait} {w : Word} {i : Instr} (h : decode kw w = .ok i) :
    encode i = w ∧ i.wellFormed kw = true := by
  cases hop : opField w using nibbleCases
  case n0 =>
    rw [decode_class0 hop] at h
    split_ifs at h with hw hw
    all_goals
      cases h
      exact ⟨hw.symm, rfl⟩
  case n1 | n2 | nA | nB =>
    simp only [hop, decode_class1, decode_class2, decode_classA, decode_classB] at h
    cases h
    exact ⟨encodeA_of_fields hop, rfl⟩
  case n3 | n4 | n6 | n7 | nC =>
    simp only [hop, decode_class3, decode_class4, decode_class6, decode_class7, decode_classC] at h
    cases h
    exact ⟨encodeI_of_fields hop rfl, rfl⟩
  case n5 | n9 =>
    simp only [hop, decode_class5, decode_class9] at h
    split_ifs at h with hn
    cases h
    exact ⟨encodeR_of_fields hop hn, rfl⟩
  case nD =>
    rw [decode_classD hop] at h
    cases h
    exact ⟨encodeR_of_fields hop rfl, rfl⟩
  case n8 =>
    obtain ⟨hw, hwf⟩ := encode_of_decodeClass8 kw ((decode_class8 hop).symm.trans h)
    exact ⟨hw.trans (encodeR_of_fields hop rfl), hwf⟩
  case nE =>
    obtain ⟨hw, hwf⟩ := encode_of_decodeClassE kw ((decode_classE hop).symm.trans h)
    exact ⟨hw.trans (encodeI_of_fields hop rfl), hwf⟩
  case nF =>
    obtain ⟨hw, hwf⟩ := encode_of_decodeClassF ((decode_classF hop).symm.trans h)
    exact ⟨hw.trans (encodeI_of_fields hop rfl), hwf⟩

/-- Settles O2, class by class: each class decodes a word to fields from which its format rebuilds the word. -/
theorem encodeInvertsDecode : Obligations.EncodeInvertsDecode := fun _ _ _ => encode_of_decode

/-! ### The rows of the opcode table (R86) -/

/-- An instruction's word, under the mask of its row, is the row's match. -/
theorem encode_masked (i : Instr) : encode i &&& (tableRow i).1 = (tableRow i).2 := by
  cases i
  case cls | ret => rfl
  case jp | call | ldI | jpV0 => exact Laws.mask_encodeA _ _
  case seImm | sneImm | ldImm | addImm | rnd => exact Laws.mask_encodeI _ _ _
  case drw => exact Laws.mask_encodeD _ _ _ _
  case skp | sknp | ldVxDT | ldVxK | ldDTVx | ldSTVx | addI | ldF | ldB | storeRegs | loadRegs =>
    exact Laws.mask_encodeX _ _ _
  all_goals exact Laws.mask_encodeR _ _ _ _

/-- A masked word keeps the bits of a field that the mask covers. -/
theorem extractLsb'_of_masked {w m v : Word} {i k : Nat} (h : w &&& m = v)
    (hm : m.extractLsb' i k = BitVec.allOnes k) : w.extractLsb' i k = v.extractLsb' i k := by
  rw [← h, BitVec.extractLsb'_and, hm, BitVec.and_allOnes]

section Masks

variable {w m v : Word} (h : w &&& m = v)
include h

theorem opField_of_masked (hm : opField m = BitVec.allOnes 4) : opField w = opField v := extractLsb'_of_masked h hm
theorem nField_of_masked (hm : nField m = BitVec.allOnes 4) : nField w = nField v := extractLsb'_of_masked h hm
theorem nnField_of_masked (hm : nnField m = BitVec.allOnes 8) : nnField w = nnField v := extractLsb'_of_masked h hm

end Masks

theorem opField_rowMask (j : Instr) : opField (tableRow j).1 = BitVec.allOnes 4 := by
  cases j <;> rw [tableRow] <;> rfl

/-- The mask of every row covers `op` and the sub-function bits of its class, so a word that matches the row is decoded along
the row's own path. -/
theorem decode_of_masked {w : Word} {j : Instr} (h : w &&& (tableRow j).1 = (tableRow j).2) :
    ∃ i, decode .wait w = .ok i ∧ tableRow i = tableRow j := by
  have hop := opField_of_masked h (opField_rowMask j)
  cases j
  all_goals rw [tableRow] at h hop
  case cls | ret =>
    cases BitVec.and_allOnes.symm.trans h
    exact ⟨_, decode_class0 rfl, rfl⟩
  case jp => exact ⟨_, decode_class1 hop, rfl⟩
  case call => exact ⟨_, decode_class2 hop, rfl⟩
  case seImm => exact ⟨_, decode_class3 hop, rfl⟩
  case sneImm => exact ⟨_, decode_class4 hop, rfl⟩
  case seReg => exact ⟨_, (decode_class5 hop).trans (if_pos (nField_of_masked h rfl)), rfl⟩
  case ldImm => exact ⟨_, decode_class6 hop, rfl⟩
  case addImm => exact ⟨_, decode_class7 hop, rfl⟩
  case sneReg => exact ⟨_, (decode_class9 hop).trans (if_pos (nField_of_masked h rfl)), rfl⟩
  case ldI => exact ⟨_, decode_classA hop, rfl⟩
  case jpV0 => exact ⟨_, decode_classB hop, rfl⟩
  case rnd => exact ⟨_, decode_classC hop, rfl⟩
  case drw => exact ⟨_, decode_classD hop, rfl⟩
  case ldReg | orReg | andReg | xorReg | addReg | subReg | shr | subn | shl =>
    have hn := nField_of_masked h rfl
    exact ⟨_, (decode_class8 hop).trans (congrArg (decodeClass8 _ _) hn), rfl⟩
  case skp | sknp =>
    have hnn := nnField_of_masked h rfl
    exact ⟨_, (decode_classE hop).trans (congrArg (decodeClassE _) hnn), rfl⟩
  all_goals
    have hnn := nnField_of_masked h rfl
    exact ⟨_, (decode_classF hop).trans (congrArg (decodeClassF _ _) hnn), rfl⟩

/-- Settles O3: a matching word takes the row's path through the decoder, and a decoded word is the encoding of its
instruction, which lies in that instruction's row. -/
theorem tableRowsSelectInstructions : Obligations.TableRowsSelectInstructions := by
  intro w j
  refine ⟨decode_of_masked, ?_⟩
  rintro ⟨i, hdecode, hrow⟩
  obtain ⟨rfl, -⟩ := encode_of_decode hdecode
  rw [← hrow, encode_masked]

/-! ### The illegal words (R87) -/

theorem error_of_ite_ok_iff {c : Prop} [Decidable c] {i : Instr} {r : Except Illegal Instr} :
    (∃ e, (if c then .ok i else r) = .error e) ↔ ¬ c ∧ ∃ e, r = .error e := by
  by_cases hc : c <;> simp [hc]

theorem decodeClass8_error_iff {x y : RegIdx} {n : Nibble} :
    (∃ e, decodeClass8 x y n = .error e) ↔ n ∈ [0x8, 0x9, 0xA, 0xB, 0xC, 0xD, 0xF] := by
  cases n using nibbleCases <;> simp [decodeClass8]

theorem decodeClassE_error_iff {x : RegIdx} {nn : Byte} :
    (∃ e, decodeClassE x nn = .error e) ↔ nn ∉ [0x9E, 0xA1] := by
  simp [decodeClassE, error_of_ite_ok_iff]

theorem decodeClassF_error_iff {kw : KeyWait} {x : RegIdx} {nn : Byte} :
    (∃ e, decodeClassF kw x nn = .error e) ↔
      nn ∉ [0x07, 0x0A, 0x15, 0x18, 0x1E, 0x29, 0x33, 0x55, 0x65] ∨ (nn = 0x0A ∧ kw = .fault) := by
  by_cases hnn : nn = 0x0A#8
  · subst hnn
    cases kw <;> simp [decodeClassF]
  · simp [decodeClassF, error_of_ite_ok_iff, hnn]

/-- Settles O4: of the sixteen classes ten have no illegal word, and the other six have those of their error branches. -/
theorem illegalWordsAreSevenClasses : Obligations.IllegalWordsAreSevenClasses := by
  intro kw w
  cases hop : opField w using nibbleCases
  case n0 | n5 | n9 => simp [hop, error_of_ite_ok_iff]
  case n8 => simp [hop, decodeClass8_error_iff]
  case nE => simp [hop, decodeClassE_error_iff]
  case nF => simp [hop, decodeClassF_error_iff]
  all_goals simp [hop]

/-! ### Words of the table (R86) -/

/-- Settles O5: the decoder, run on each of the seventeen words. -/
theorem specWordsDecode : Obligations.SpecWordsDecode := by
  unfold Obligations.SpecWordsDecode
  decide

end Sys2Proof

namespace Sys2Proof.Machine

/-! ### Key latch, timers and `REDRAW` under an instruction (R113, R32) -/

theorem not_writes_key (i : Instr) : ¬ Writes i .key := by
  cases i <;> simp [Writes]

theorem writes_delay_iff (i : Instr) : Writes i .delay ↔ ∃ x, i = .ldDTVx x := by
  cases i <;> simp [Writes]

theorem writes_sound_iff (i : Instr) : Writes i .sound ↔ ∃ x, i = .ldSTVx x := by
  cases i <;> simp [Writes]

theorem writes_redraw_iff (i : Instr) : Writes i .redraw ↔ i = .cls ∨ ∃ x y n, i = .drw x y n := by
  cases i <;> simp [Writes]

theorem exec_key {i : Instr} {s t : State} (h : exec i s = .next t) : t.key = s.key := by
  by_contra hkey
  exact not_writes_key i (writes_of_changed (p := .key) h hkey)

/-- No instruction clears `REDRAW`: of the two that write it, CLS sets it, and DRW sets it or faults. -/
theorem exec_redraw_of_set {i : Instr} {s t : State} (h : exec i s = .next t) (hs : s.redraw = true) :
    t.redraw = true := by
  by_contra ht
  have hchanged : t.redraw ≠ s.redraw := fun heq => ht (heq.trans hs)
  rcases (writes_redraw_iff i).mp (writes_of_changed (p := .redraw) h hchanged) with rfl | ⟨x, y, n, rfl⟩
  · obtain rfl := Host.Outcome.next.inj h
    exact ht rfl
  · rcases next_of_guard h with ⟨-, rfl⟩ | rfl
    · exact ht rfl
    · exact ht hs

/-- Settles O16: each part changes only under an instruction that has it among its destinations, and both that write `REDRAW`
set it. -/
theorem instructionsLeaveTheOtherEngines : Obligations.InstructionsLeaveTheOtherEngines := by
  intro i s t h
  refine ⟨exec_key h, fun hdt => ?_, fun hst => ?_, exec_redraw_of_set h, fun hredraw => ?_⟩
  · exact (writes_delay_iff i).mp (writes_of_changed (p := .delay) h hdt)
  · exact (writes_sound_iff i).mp (writes_of_changed (p := .sound) h hst)
  · exact (writes_redraw_iff i).mp (writes_of_changed (p := .redraw) h hredraw)

/-! ### The fetch at the end of memory (R112) -/

/-- Past 4094 the instruction cycle takes MemoryOutOfBounds and executes nothing (R112). -/
theorem runInstruction_of_pc_gt {s : State} (hpc : 4094 < s.pc.toNat) :
    runInstruction s = s.raise .memoryOutOfBounds := by
  rw [runInstruction, s.fetch_eq_none_iff.mpr hpc]

/-- Settles O7: the Step of either schedule is an instruction cycle with only the driver's side new, and past 4094 that cycle
takes the fault. -/
theorem fetchIsBigEndianAndBounded : Obligations.FetchIsBigEndianAndBounded := by
  intro s
  refine ⟨State.fetch_eq_some, fun hf hn hpc => ?_⟩
  obtain ⟨d, hd⟩ := step_of_stepIsNext hf hn
  have hfault : runInstruction (s.withDriver d) = (s.withDriver d).raise .memoryOutOfBounds :=
    runInstruction_of_pc_gt hpc
  refine ⟨_, hd.trans hfault, rfl, ?_⟩
  exact ((unchangedBut_withDriver s d).trans (unchangedBut_raise _ _)).mono fun _ => Or.symm

end Sys2Proof.Machine

namespace Sys2Proof.Machine

/-! ### Frames of the control transfers (R111, R120 to R128) -/

theorem unchangedBut_advance_setPc (s : State) (a : Word) : UnchangedBut (· = .pc) s (s.advance.setPc a) :=
  ((unchangedBut_advance s).trans (unchangedBut_setPc _ a)).mono fun _ => or_self_iff.mp

theorem unchangedBut_advance_skipIf (s : State) (c : Bool) : UnchangedBut (· = .pc) s (s.advance.skipIf c) :=
  ((unchangedBut_advance s).trans (unchangedBut_skipIf _ c)).mono fun _ => or_self_iff.mp

/-- Where a conditional skip ends: two instructions on, or one (R120). -/
theorem State.advance_skipIf_pc (s : State) (c : Bool) :
    (s.advance.skipIf c).pc = if c then s.pc + 4 else s.pc + 2 := by
  have hskip : s.pc + 2 + 2 = s.pc + 4 := BitVec.add_assoc s.pc 2 2
  rw [State.skipIf_eq, State.setPc_pc, State.advance_pc, hskip]

/-- A push writes the slot at the depth it began with, and no other. -/
theorem unchangedBut_push {s : State} (v : Word) (n : Fin 17) (h : s.sp.val < 16) :
    UnchangedBut (fun p => p = .depth ∨ ∃ j, p = .slot j ∧ j.val = s.sp.val) s
      { s with stack := s.stack.set s.sp.val v, sp := n } := by
  intro p hp
  cases p
  case depth => exact absurd (.inl rfl) hp
  case slot j =>
    have hj : s.sp.val ≠ j.val := fun heq => hp (.inr ⟨j, rfl, heq.symm⟩)
    exact Vector.getElem_set_ne h j.isLt hj
  all_goals rfl

/-! ### The call stack (R121, R123) -/

/-- Settles O21: the two ends of RET, and the frame of a pop and a jump. -/
theorem retPopsTheReturnAddress : Obligations.RetPopsTheReturnAddress := by
  refine ⟨encodedAs_encode .ret, fun s => ⟨execRet_of_empty, fun hsp => ?_⟩⟩
  refine ⟨_, execRet_of_nonempty hsp, rfl, Vector.getElem?_eq_getElem _, ?_⟩
  exact ((unchangedBut_depth s ⟨s.sp.val - 1, by omega⟩).trans (unchangedBut_setPc _ _)).mono fun _ => Or.symm

/-- Settles O23: the two ends of CALL, and the frame of a push and a jump. -/
theorem callPushesTheReturnAddress : Obligations.CallPushesTheReturnAddress := by
  intro s nnn
  refine ⟨encodedAs_encode (.call nnn), fun hfull => execCall_of_full nnn (by omega), fun hroom => ?_⟩
  refine ⟨_, execCall_of_room nnn hroom, rfl, Vector.getElem?_set_self hroom, toNat_addrWord nnn, ?_⟩
  exact ((unchangedBut_push _ _ hroom).trans (unchangedBut_setPc _ _)).mono fun _ => Or.symm

/-- Settles O27: CALL puts the address in the slot that RET pops, so RET undoes the depth and jumps to it; the frames of the
two compose. -/
theorem callThenReturn : Obligations.CallThenReturn := by
  intro s nnn hroom
  obtain ⟨-, -, hcall⟩ := callPushesTheReturnAddress s nnn
  obtain ⟨t, ht, htsp, htslot, -, htframe⟩ := hcall hroom
  obtain ⟨-, hret⟩ := retPopsTheReturnAddress.2 t
  obtain ⟨u, hu, husp, huslot, huframe⟩ := hret (by omega)
  have hdepth : u.sp.val = s.sp.val := by omega
  have htop : t.sp.val - 1 = s.sp.val := by omega
  rw [htop, htslot] at huslot
  refine ⟨t, u, ht, hu, (Option.some.inj huslot).symm, fun p hp => ?_⟩
  by_cases hpd : p = .depth
  · subst hpd
    exact Fin.ext hdepth
  · refine htframe.trans huframe p ?_
    rintro ((hpc | hd | hslot) | hpc | hd)
    · exact hp (.inl hpc)
    · exact hpd hd
    · exact hp (.inr hslot)
    · exact hp (.inl hpc)
    · exact hpd hd

/-! ### Jumps (R122, R128) -/

/-- Settles O22: `PC` is the zero-extended address. -/
theorem jpLoadsTheAddress : Obligations.JpLoadsTheAddress := fun s nnn =>
  ⟨encodedAs_encode (.jp nnn), _, rfl, toNat_addrWord nnn, unchangedBut_advance_setPc s _⟩

/-- A 12-bit address and a byte have a sum below 65536. -/
theorem toNat_addrWord_add_byteWord (nnn : Addr12) (v : Byte) :
    (addrWord nnn + byteWord v).toNat = nnn.toNat + v.toNat := by
  rw [BitVec.toNat_add, toNat_addrWord, toNat_byteWord]
  omega

/-- Settles O24: the 16-bit sum that JP V0 forms does not wrap. -/
theorem jpV0AddsRegisterZero : Obligations.JpV0AddsRegisterZero := fun s nnn =>
  ⟨encodedAs_encode (.jpV0 nnn), _, rfl, toNat_addrWord_add_byteWord nnn _, unchangedBut_advance_setPc s _⟩

/-! ### Conditional skips (R124 to R127) -/

/-- A meaning that skips where the Boolean `c` says `P` ends where the spec says and changes `PC` alone. -/
theorem skip_spec {i : Instr} {s : State} {c : Bool} {P : Prop} [Decidable P]
    (h : exec i s = .next (s.advance.skipIf c)) (hc : c = true ↔ P) :
    ∃ t, exec i s = .next t ∧ t.pc = (if P then s.pc + 4 else s.pc + 2) ∧ UnchangedBut (· = .pc) s t :=
  ⟨_, h, by simp only [State.advance_skipIf_pc, hc], unchangedBut_advance_skipIf s c⟩

/-- Settles O25: the tests of SE and SNE on a constant are equality and its negation. -/
theorem immediateSkips : Obligations.ImmediateSkips := fun _ x nn =>
  ⟨⟨encodedAs_encode (.seImm x nn), skip_spec rfl beq_iff_eq⟩,
    ⟨encodedAs_encode (.sneImm x nn), skip_spec rfl bne_iff_ne⟩⟩

/-- Settles O26: the tests of SE and SNE on a register are equality and its negation. -/
theorem registerSkips : Obligations.RegisterSkips := fun _ x y =>
  ⟨⟨encodedAs_encode (.seReg x y), skip_spec rfl beq_iff_eq⟩,
    ⟨encodedAs_encode (.sneReg x y), skip_spec rfl bne_iff_ne⟩⟩

end Sys2Proof.Machine

namespace Sys2Proof.Machine

/-! ### Reads and frames of a result written on the working copy (R111, R141) -/

section WriteFlagThenResult

variable (s : State) (x : RegIdx) (f : Bool) (v : Byte)

/-- The result is what stays in `V[x]`, with `x = 15` too (R141). -/
theorem State.reg_writeFlagThenResult_same : (s.writeFlagThenResult x f v).reg x = v :=
  (s.setReg vf (flagByte f)).reg_setReg_same x v

theorem State.reg_vf_writeFlagThenResult {x : RegIdx} (hx : x ≠ vf) :
    (s.writeFlagThenResult x f v).reg vf = flagByte f := by
  rw [State.reg_writeFlagThenResult, if_neg hx.symm, if_pos rfl]

theorem unchangedBut_advance_setReg : UnchangedBut (fun p => p = .pc ∨ p = .reg x) s (s.advance.setReg x v) :=
  (unchangedBut_advance s).trans (unchangedBut_setReg _ x v)

theorem unchangedBut_advance_writeFlagThenResult :
    UnchangedBut (fun p => p = .pc ∨ p = .reg x ∨ p = .reg vf) s (s.advance.writeFlagThenResult x f v) :=
  ((unchangedBut_advance s).trans (unchangedBut_writeFlagThenResult _ x f v)).mono fun _ => Or.imp_right Or.symm

end WriteFlagThenResult

/-! ### Flags and results as numbers (R22, R140) -/

theorem toNat_flagByte (f : Bool) : (flagByte f).toNat = f.toNat := by
  cases f <;> rfl

theorem flagByte_decide (P : Prop) [Decidable P] : flagByte (decide P) = if P then 1 else 0 := by
  simp only [flagByte, decide_eq_true_eq]

theorem flagByte_carryOut (a b : Byte) : flagByte (carryOut a b) = if a.toNat + b.toNat > 255 then 1 else 0 :=
  flagByte_decide _

theorem flagByte_noBorrow (a b : Byte) : flagByte (noBorrow a b) = if a.toNat ≥ b.toNat then 1 else 0 :=
  flagByte_decide _

theorem toNat_flagByte_bitOutRight (v : Byte) : (flagByte (bitOutRight v)).toNat = v.toNat % 2 := by
  rw [toNat_flagByte, bitOutRight, BitVec.getLsbD, Nat.toNat_testBit, pow_zero, Nat.div_one]

/-- Bit 7 is the whole quotient by 128: a byte has no higher bit. -/
theorem toNat_flagByte_bitOutLeft (v : Byte) : (flagByte (bitOutLeft v)).toNat = v.toNat / 128 := by
  rw [toNat_flagByte, bitOutLeft, BitVec.getLsbD, Nat.toNat_testBit]
  omega

/-- The difference of bytes is the integer difference modulo 256, borrow or not (R140). -/
theorem toNat_sub_eq_emod (a b : Byte) : ((a - b).toNat : Int) = ((a.toNat : Int) - (b.toNat : Int)) % 256 := by
  rw [BitVec.toNat_sub]
  omega

theorem toNat_shiftRight_one (v : Byte) : (v >>> 1).toNat = v.toNat / 2 := by
  rw [BitVec.toNat_ushiftRight, Nat.shiftRight_one]

theorem toNat_shiftLeft_one (v : Byte) : (v <<< 1).toNat = v.toNat * 2 % 256 := by
  rw [BitVec.toNat_shiftLeft, Nat.shiftLeft_eq]

theorem State.toNat_shiftSource (s : State) (x y : RegIdx) :
    (s.shiftSource x y).toNat = if s.config.shiftSrc = .vx then (s.reg x).toNat else (s.reg y).toNat := by
  rw [State.shiftSource]
  cases s.config.shiftSrc <;> rfl

/-! ### Loads, wrapping addition and logic (R142 to R147) -/

/-- Settles O28: the one register write is of `nn`. -/
theorem loadImmediate : Obligations.LoadImmediate := fun s x nn =>
  ⟨encodedAs_encode (.ldImm x nn), _, rfl, State.reg_setReg_same _ x nn, rfl, unchangedBut_advance_setReg s x nn⟩

/-- Settles O29: the one register write is of the 8-bit sum. -/
theorem addImmediate : Obligations.AddImmediate := by
  intro s x nn
  refine ⟨encodedAs_encode (.addImm x nn), _, rfl, ?_, rfl, unchangedBut_advance_setReg s x _⟩
  rw [State.reg_setReg_same, BitVec.toNat_add]

/-- Settles O30: each of the four writes one register, with a value whose bits are those of the operands combined. -/
theorem assignAndLogic : Obligations.AssignAndLogic := by
  intro s x y
  refine ⟨⟨encodedAs_encode (.ldReg x y), _, rfl, State.reg_setReg_same _ x _, rfl, unchangedBut_advance_setReg s x _⟩,
    ⟨encodedAs_encode (.orReg x y), _, rfl, fun b => ?_, rfl, unchangedBut_advance_setReg s x _⟩,
    ⟨encodedAs_encode (.andReg x y), _, rfl, fun b => ?_, rfl, unchangedBut_advance_setReg s x _⟩,
    ⟨encodedAs_encode (.xorReg x y), _, rfl, fun b => ?_, rfl, unchangedBut_advance_setReg s x _⟩⟩
  · rw [State.reg_setReg_same, BitVec.getLsbD_or]
  · rw [State.reg_setReg_same, BitVec.getLsbD_and]
  · rw [State.reg_setReg_same, BitVec.getLsbD_xor]

/-! ### Results with a flag (R148 to R152) -/

/-- What the five flag-writing meanings have in common: an instruction that writes the flag `f` and then the result `v` leaves
`v` in `V[x]` and, unless `x = 15`, `f` in VF; what is true of the two is true of the registers (R141). -/
theorem writeFlagThenResult_spec {i : Instr} {s : State} {x : RegIdx} {f : Bool} {v : Byte} (P Q : Byte → Prop)
    (h : exec i s = .next (s.advance.writeFlagThenResult x f v)) (hv : P v) (hf : Q (flagByte f)) :
    ∃ t, exec i s = .next t ∧ P (t.reg x) ∧ (x ≠ vf → Q (t.reg vf)) ∧ t.pc = s.pc + 2 ∧
      UnchangedBut (fun p => p = .pc ∨ p = .reg x ∨ p = .reg vf) s t := by
  refine ⟨_, h, ?_, fun hx => ?_, rfl, unchangedBut_advance_writeFlagThenResult s x f v⟩
  · rwa [State.reg_writeFlagThenResult_same]
  · rwa [State.reg_vf_writeFlagThenResult _ _ _ hx]

/-- Settles O31: the result is the 8-bit sum, the flag the carry of the old values. -/
theorem addWithCarryOut : Obligations.AddWithCarryOut := fun s x y =>
  ⟨encodedAs_encode (.addReg x y),
    writeFlagThenResult_spec (fun r => r.toNat = ((s.reg x).toNat + (s.reg y).toNat) % 256) (· = _) rfl
      (BitVec.toNat_add _ _) (flagByte_carryOut _ _)⟩

/-- Settles O32: SUB and SUBN differ in which register is the minuend; the flag is the no-borrow of the old values. -/
theorem subtractBothWays : Obligations.SubtractBothWays := fun s x y =>
  ⟨⟨encodedAs_encode (.subReg x y),
      writeFlagThenResult_spec (fun r => (r.toNat : Int) = ((s.reg x).toNat - (s.reg y).toNat : Int) % 256) (· = _) rfl
        (toNat_sub_eq_emod _ _) (flagByte_noBorrow _ _)⟩,
    ⟨encodedAs_encode (.subn x y),
      writeFlagThenResult_spec (fun r => (r.toNat : Int) = ((s.reg y).toNat - (s.reg x).toNat : Int) % 256) (· = _) rfl
        (toNat_sub_eq_emod _ _) (flagByte_noBorrow _ _)⟩⟩

/-- Settles O33: `v` is the shift's source under both settings, and each shift by one is a quotient or a product of it. -/
theorem shiftsByOne : Obligations.ShiftsByOne := by
  intro s x y v hv
  rw [← s.toNat_shiftSource] at hv
  subst hv
  exact ⟨⟨encodedAs_encode (.shr x y),
      writeFlagThenResult_spec (fun r => r.toNat = (s.shiftSource x y).toNat / 2)
        (fun r => r.toNat = (s.shiftSource x y).toNat % 2) rfl (toNat_shiftRight_one _) (toNat_flagByte_bitOutRight _)⟩,
    ⟨encodedAs_encode (.shl x y),
      writeFlagThenResult_spec (fun r => r.toNat = (s.shiftSource x y).toNat * 2 % 256)
        (fun r => r.toNat = (s.shiftSource x y).toNat / 128) rfl (toNat_shiftLeft_one _) (toNat_flagByte_bitOutLeft _)⟩⟩

/-! ### RND with the byte of the Step (R153) -/

theorem State.rndByte_of_some {s : State} {r : Byte} (h : s.driver.rnd = some r) : s.rndByte = r := by
  rw [State.rndByte, h, Option.getD_some]

/-- Settles O34: the random byte is the one the Step names. -/
theorem randomUnderTheMask : Obligations.RandomUnderTheMask := by
  intro s x nn r hr
  refine ⟨encodedAs_rnd x nn, _, exec_rnd s x nn, ?_, rfl, rfl, unchangedBut_rnd s x _⟩
  rw [State.reg_setReg_same, State.rndByte_of_some hr]

end Sys2Proof.Machine

namespace Sys2Proof.Machine

/-! ### A byte string in memory: reads and frame by offset (R53, R166) -/

theorem State.indexed_zero_add (s : State) (k : Nat) : s.indexed 0 + k = s.indexed k := rfl

/-- Byte `k` of a written string stands at offset `k`. -/
theorem State.readByte_writeBytes_add (s : State) (a : Nat) {vs : List Byte} {k : Nat} (hk : k < vs.length) :
    (s.writeBytes a vs).readByte (a + k) = vs[k] := by
  have hrange : a ≤ a + k ∧ a + k < a + vs.length := by omega
  rw [State.readByte_writeBytes, dif_pos hrange]
  simp only [Nat.add_sub_cancel_left]

/-- A write of a byte string changes the bytes at its own offsets alone. -/
theorem unchangedBut_writeBytes_offsets (s : State) (a : Nat) (vs : List Byte) :
    UnchangedBut (fun p => ∃ k, k < vs.length ∧ p = .byte (a + k)) s (s.writeBytes a vs) := by
  intro p hp
  by_cases hbyte : ∃ b, p = .byte b
  · obtain ⟨b, rfl⟩ := hbyte
    have hout : ¬ (a ≤ b ∧ b < a + vs.length) := fun ⟨hle, hlt⟩ =>
      hp ⟨b - a, by omega, by rw [Nat.add_sub_cancel' hle]⟩
    exact (s.readByte_writeBytes a b vs).trans (dif_neg hout)
  · exact unchangedBut_writeBytes s a vs p hbyte

/-- What a meaning that stores a byte string from `I` up leaves unchanged. -/
theorem unchangedBut_advance_writeBytes (s : State) (vs : List Byte) :
    UnchangedBut (fun p => p = .pc ∨ ∃ k, k < vs.length ∧ p = .byte (s.indexed k)) s
      (s.advance.writeBytes (s.indexed 0) vs) :=
  (unchangedBut_advance s).trans (unchangedBut_writeBytes_offsets _ (s.indexed 0) vs)

/-! ### Past the end of memory (R163 to R165) -/

/-- The check of a memory instruction fails where its last address is past 4095, and the fault is all that happens. -/
theorem raise_of_outside_memory {last : Nat} (h : last > 4095) (s u : State) (k : FaultKind) :
    (if inMemory last then .next u else s.raise k : Result) = s.raise k :=
  if_neg fun hm => Nat.not_le_of_gt h ((inMemory_iff last).mp hm)

/-! ### LD B, Vx (R163) -/

theorem length_decimalDigits (v : Byte) : (decimalDigits v).length = 3 := rfl

/-- A byte holds every number below 256, so every decimal digit. -/
theorem toNat_ofNat_byte {n : Nat} (h : n < 256) : (BitVec.ofNat 8 n).toNat = n :=
  (BitVec.toNat_ofNat n 8).trans (Nat.mod_eq_of_lt h)

theorem exec_ldB_of_le {x : RegIdx} {s : State} (h : s.indexed 2 ≤ 4095) :
    exec (.ldB x) s = .next (s.advance.writeBytes (s.indexed 0) (decimalDigits (s.reg x))) :=
  if_pos ((inMemory_iff _).mpr h)

/-- After LD B the byte at each of the three offsets of `I` is the digit of that place. -/
theorem readByte_writeBytes_decimalDigits (s : State) (v : Byte) {k : Nat} (hk : k < 3) :
    (s.advance.writeBytes (s.indexed 0) (decimalDigits v)).readByte (s.indexed k) = (decimalDigits v)[k]'hk := by
  rw [← s.indexed_zero_add]
  exact s.advance.readByte_writeBytes_add _ hk

/-- Settles O37: three bytes are written at the offsets 0, 1 and 2 of `I`, and each digit fits its byte. -/
theorem storeDecimalDigits : Obligations.StoreDecimalDigits := by
  intro s x
  have hlt : (s.reg x).toNat < 256 := (s.reg x).isLt
  refine ⟨encodedAs_encode (.ldB x), fun hm => ⟨_, exec_ldB_of_le hm, ?_, ?_, ?_, State.writeBytes_pc _ _ _, ?_⟩,
    fun hm => raise_of_outside_memory hm s _ _⟩
  · rw [readByte_writeBytes_decimalDigits s _ (by decide : 0 < 3)]
    exact toNat_ofNat_byte (by omega)
  · rw [readByte_writeBytes_decimalDigits s _ (by decide : 1 < 3)]
    exact toNat_ofNat_byte (by omega)
  · rw [readByte_writeBytes_decimalDigits s _ (by decide : 2 < 3)]
    exact toNat_ofNat_byte (by omega)
  · refine (unchangedBut_advance_writeBytes s _).mono ?_
    rintro p (hp | ⟨k, hk, hp⟩)
    · exact .inl hp
    · rw [length_decimalDigits] at hk
      interval_cases k <;> simp [hp]

/-! ### LD [I], Vx and LD Vx, [I] (R164, R165) -/

/-- Settles O38: `x + 1` bytes are written at the offsets of `I`, each the register of that number. -/
theorem registerDump : Obligations.RegisterDump := by
  intro s x
  refine ⟨encodedAs_encode (.storeRegs x), fun hm => ?_, fun hm => raise_of_outside_memory hm s _ _⟩
  have hdump := exec_storeRegs_of_le hm
  refine ⟨_, hdump, fun r hr => readByte_of_exec_storeRegs hdump hm hr, State.writeBytes_pc _ _ _, ?_⟩
  refine (unchangedBut_advance_writeBytes s _).mono ?_
  rintro p (hp | ⟨k, hk, hp⟩)
  · exact .inl hp
  · rw [List.length_map, length_regsUpTo] at hk
    exact .inr ⟨k, Nat.le_of_lt_succ hk, hp⟩

/-- Settles O39: the registers numbered up to `x` take the bytes at their own offsets of `I`, and only the register file is
written. -/
theorem registerLoad : Obligations.RegisterLoad := by
  intro s x
  refine ⟨encodedAs_encode (.loadRegs x), fun hm => ?_, fun hm => raise_of_outside_memory hm s _ _⟩
  have hload := exec_loadRegs_of_le hm
  exact ⟨_, hload, fun r hr => reg_of_exec_loadRegs hload hm hr, loadRegsFrom_pc _ _,
    (unchangedBut_advance s).trans (unchangedBut_loadRegsFrom _ x)⟩

/-! ### Writes of `I` (R160 to R162) -/

/-- The stride takes no byte past 255 * 5, so the glyph's address does not wrap. -/
theorem toNat_byteWord_mul_glyphStride (v : Byte) :
    (byteWord v * BitVec.ofNat 16 glyphStride).toNat = v.toNat * 5 := by
  have hstride : (BitVec.ofNat 16 glyphStride).toNat = 5 := rfl
  rw [BitVec.toNat_mul, toNat_byteWord, hstride]
  omega

/-- An instruction that writes `v` to `I` on the working copy ends at the next instruction and changes nothing else. -/
theorem indexWrite_spec {i : Instr} {s : State} {v : Word} {n : Nat}
    (h : exec i s = .next { s.advance with i := v }) (hv : v.toNat = n) :
    ∃ t, exec i s = .next t ∧ t.i.toNat = n ∧ t.pc = s.pc + 2 ∧ UnchangedBut (fun p => p = .pc ∨ p = .index) s t :=
  ⟨_, h, hv, rfl, (unchangedBut_advance s).trans (unchangedBut_index _ v)⟩

/-- Settles O36: the three differ in the word they write to `I`. -/
theorem indexRegisterWrites : Obligations.IndexRegisterWrites := by
  intro s x nnn
  refine ⟨⟨encodedAs_encode (.ldI nnn), indexWrite_spec rfl (toNat_addrWord nnn)⟩,
    ⟨encodedAs_encode (.addI x), indexWrite_spec rfl ?_⟩,
    ⟨encodedAs_encode (.ldF x), indexWrite_spec rfl (toNat_byteWord_mul_glyphStride _)⟩⟩
  rw [BitVec.toNat_add, toNat_byteWord]

end Sys2Proof.Machine

namespace Sys2Proof.Machine

/-! ### CLS (R171) -/

/-- Settles O43: CLS writes the cleared buffer and requests the redraw on the working copy, and nothing else. -/
theorem clearScreen : Obligations.ClearScreen := by
  refine ⟨encodedAs_encode .cls, fun s => ⟨_, rfl, Frame.cell_clear, rfl, rfl, ?_⟩⟩
  exact ((unchangedBut_advance s).trans (unchangedBut_display _ _ true)).mono fun _ => Or.imp_right Or.symm

/-! ### The cells that DRW toggles (R170, R172) -/

/-- The cells that DRW toggles, in the order it does so. -/
def State.drawnCells (s : State) (x y : RegIdx) (n : Nat) : List Nat :=
  spriteCells s.config.spriteEdge (s.reg x).toNat (s.reg y).toNat (s.spriteRows n)

theorem State.length_spriteRows (s : State) (n : Nat) : (s.spriteRows n).length = n := by
  rw [State.spriteRows, List.length_map, List.length_range]

theorem State.getElem_spriteRows (s : State) {n r : Nat} (h : r < (s.spriteRows n).length) :
    (s.spriteRows n)[r] = s.readByte (s.i.toNat + r) := by
  simp only [State.spriteRows, List.getElem_map, List.getElem_range, State.indexed_eq]

/-- The edge rule of `Covers` is the model's `cellAt`. -/
theorem State.covers_iff_cellAt {s : State} {x y : RegIdx} {n j : Nat} :
    s.Covers x y n j ↔ ∃ r, r < n ∧ ∃ c, c < 8 ∧ (s.readByte (s.i.toNat + r)).getLsbD (7 - c) = true ∧
      cellAt s.config.spriteEdge ((s.reg x).toNat + c) ((s.reg y).toNat + r) = some j := by
  unfold State.Covers
  cases s.config.spriteEdge with
  | wrap => simp only [cellAt_wrap]
  | clip => simp only [cellAt_clip]

theorem State.mem_drawnCells {s : State} {x y : RegIdx} {n j : Nat} : j ∈ s.drawnCells x y n ↔ s.Covers x y n j := by
  simp only [State.drawnCells, mem_spriteCells, State.covers_iff_cellAt, State.length_spriteRows,
    State.getElem_spriteRows, exists_prop]

/-- A sprite has at most 15 rows, so no two of its pixels wrap to one cell (R172 (4)). -/
theorem State.drawnCells_nodup (s : State) (x y : RegIdx) (n : Fin 16) : (s.drawnCells x y n.val).Nodup := by
  refine spriteCells_nodup _ _ _ _ ?_
  rw [State.length_spriteRows]
  omega

/-- The cells under a sprite depend on its coordinates, its bytes and the edge rule alone. -/
theorem State.covers_congr {s t : State} {x y : RegIdx} (hx : t.reg x = s.reg x) (hy : t.reg y = s.reg y)
    (hi : t.i = s.i) (hmem : ∀ a, t.readByte a = s.readByte a) (hconfig : t.config = s.config) (n j : Nat) :
    t.Covers x y n j ↔ s.Covers x y n j := by
  simp only [State.covers_iff_cellAt, hx, hy, hi, hmem, hconfig]

/-! ### DRW (R172) -/

/-- The state after a completed DRW that left the buffer `fb` and the collision flag `f`. -/
def State.drawn (s : State) (f : Bool) (fb : Frame) : State :=
  { s.advance.setReg vf (flagByte f) with fb := fb, redraw := true }

theorem exec_drw_of_le {s : State} (x y : RegIdx) {n : Fin 16} (h : n.val = 0 ∨ s.i.toNat + n.val - 1 ≤ 4095) :
    exec (.drw x y n) s = .next
      (s.drawn (drawCells s.fb (s.drawnCells x y n.val)).2 (drawCells s.fb (s.drawnCells x y n.val)).1) :=
  if_pos ((s.spriteInMemory_iff n.val).mpr h)

theorem exec_drw_of_gt {s : State} (x y : RegIdx) {n : Fin 16} (hn : n.val ≥ 1) (h : s.i.toNat + n.val - 1 > 4095) :
    exec (.drw x y n) s = s.raise .memoryOutOfBounds := by
  refine if_neg fun hm => ?_
  have hle := (s.spriteInMemory_iff n.val).mp hm
  omega

theorem State.drawn_reg_vf (s : State) (f : Bool) (fb : Frame) : (s.drawn f fb).reg vf = flagByte f :=
  s.advance.reg_setReg_same vf (flagByte f)

theorem unchangedBut_drawn (s : State) (f : Bool) (fb : Frame) :
    UnchangedBut (fun p => p = .pc ∨ p = .reg vf ∨ p = .redraw ∨ ∃ j, p = .cell j) s (s.drawn f fb) := by
  have h := (unchangedBut_advance_setReg s vf (flagByte f)).trans (unchangedBut_display _ fb true)
  exact h.mono fun p hp => (or_assoc.mp hp).imp_right (Or.imp_right Or.symm)

/-- Settles O44: DRW toggles each covered cell once, so each flips and collides exactly when it was 1. -/
theorem drawSprite : Obligations.DrawSprite := by
  intro s x y n
  refine ⟨encodedAs_encode (.drw x y n), fun h => ?_, exec_drw_of_gt x y⟩
  obtain ⟨hcell, hflag⟩ :=
    drawCells_spec s.fb (s.drawnCells x y n.val) (s.drawnCells_nodup x y n) fun _ => spriteCells_lt
  simp only [State.mem_drawnCells] at hflag
  refine ⟨_, exec_drw_of_le x y h, fun j hj => ?_, fun j hj => ?_, fun hc => ?_, fun hc => ?_, rfl, rfl,
    unchangedBut_drawn s _ _⟩
  · have hmem := State.mem_drawnCells.mpr hj
    exact (hcell j).trans (by simp [hmem, State.cell])
  · have hmem := mt State.mem_drawnCells.mp hj
    exact (hcell j).trans (by simp [hmem, State.cell])
  · rw [State.drawn_reg_vf, hflag.mpr hc]
    rfl
  · rw [State.drawn_reg_vf, Bool.eq_false_iff.mpr (mt hflag.mp hc)]
    rfl

/-- Settles O45: the first draw changes nothing that places the sprite, so the second covers the same cells and flips each
one back; it finds a 1 where the first found a 0. -/
theorem drawingTwiceRestores : Obligations.DrawingTwiceRestores := by
  intro s x y n hx hy h
  obtain ⟨-, hdraw, -⟩ := drawSprite s x y n
  obtain ⟨t, ht, hflip, hkeep, -, -, -, -, hframe⟩ := hdraw h
  have hi : t.i = s.i := hframe .index (by simp)
  have hcovers : ∀ j, t.Covers x y n.val j ↔ s.Covers x y n.val j :=
    State.covers_congr (hframe (.reg x) (by simp [hx])) (hframe (.reg y) (by simp [hy])) hi
      (fun a => hframe (.byte a) (by simp)) (hframe .config (by simp)) n.val
  obtain ⟨-, hdraw', -⟩ := drawSprite t x y n
  obtain ⟨u, hu, hflip', hkeep', hset, hclear, -⟩ := hdraw' (by rwa [hi])
  simp only [hcovers] at hflip' hkeep' hset hclear
  have hcollide : (∃ j, s.Covers x y n.val j ∧ t.cell j = true) ↔ ∃ j, s.Covers x y n.val j ∧ s.cell j = false :=
    exists_congr fun j => and_congr_right fun hj => by rw [hflip j hj, Bool.not_eq_true']
  refine ⟨t, u, ht, hu, fun j => ?_, ?_⟩
  · by_cases hj : s.Covers x y n.val j
    · rw [hflip' j hj, hflip j hj, Bool.not_not]
    · rw [hkeep' j hj, hkeep j hj]
  · rw [← hcollide]
    refine ⟨fun h1 => ?_, hset⟩
    by_contra hnone
    rw [hclear hnone] at h1
    exact absurd h1 (by decide)

end Sys2Proof.Machine

namespace Sys2Proof.Machine

/-! ### Timer transfers (R180 to R182) -/

/-- The tone is on exactly where the sound timer is not 0 (R34). -/
theorem State.tone_eq (s : State) : s.tone = decide (s.st ≠ 0) :=
  decide_eq_decide.mpr (Nat.pos_iff_ne_zero.trans (BitVec.toNat_ne_iff_ne (y := 0)))

/-- Settles O46: each of the three writes one part on the working copy; the tone is read from the sound timer written. -/
theorem timerTransfers : Obligations.TimerTransfers := fun s x =>
  ⟨⟨encodedAs_encode (.ldVxDT x), _, rfl, State.reg_setReg_same _ x _, rfl, unchangedBut_advance_setReg s x _⟩,
    ⟨encodedAs_encode (.ldDTVx x), _, rfl, rfl, rfl, (unchangedBut_advance s).trans (unchangedBut_delay _ _)⟩,
    ⟨encodedAs_encode (.ldSTVx x), _, rfl, rfl, rfl, State.tone_eq _,
      (unchangedBut_advance s).trans (unchangedBut_sound _ _)⟩⟩

/-! ### Key skips (R183, R184) -/

theorem toNat_zeroExtendedKey (k : Nibble) : (k.setWidth 8).toNat = k.toNat :=
  BitVec.toNat_setWidth_of_le (by decide)

/-- The key test compares the whole register with the latch; no key latched fails it (R183). -/
theorem State.keyMatches_iff (s : State) (x : RegIdx) :
    s.keyMatches x = true ↔ ∃ k, s.key = some k ∧ k.toNat = (s.reg x).toNat := by
  rw [State.keyMatches]
  cases s.key with
  | none => simp
  | some k =>
    simp only [beq_iff_eq, Option.some.injEq, exists_eq_left']
    rw [← BitVec.toNat_inj, toNat_zeroExtendedKey]

/-- Settles O47: SKP skips where the key test succeeds, SKNP where it fails. -/
theorem keySkips : Obligations.KeySkips := by
  intro s x
  simp only [← State.keyMatches_iff]
  obtain ⟨t, ht, htpc, htframe⟩ := skip_spec (i := .skp x) (P := s.keyMatches x = true) rfl Iff.rfl
  obtain ⟨u, hu, hupc, huframe⟩ :=
    skip_spec (i := .sknp x) (P := ¬ s.keyMatches x = true) rfl (by rw [Bool.not_eq_true', Bool.not_eq_true])
  exact ⟨⟨encodedAs_encode (.skp x), t, ht, fun h => htpc.trans (if_pos h), fun h => htpc.trans (if_neg h), htframe⟩,
    ⟨encodedAs_encode (.sknp x), u, hu, fun h => hupc.trans (if_neg (not_not.mpr h)), fun h => hupc.trans (if_pos h),
      huframe⟩⟩

/-! ### LD Vx, K (R185) -/

section LoadKey

variable {s : State} (x : RegIdx)

theorem exec_ldVxK_of_key {k : Nibble} (hw : s.config.keyWait = .wait) (hk : s.key = some k) :
    exec (.ldVxK x) s = .next (s.advance.setReg x (k.setWidth 8)) := by
  simp only [exec, execLdVxK, hw, hk]

/-- Waiting for a key leaves the very state: the jump back to `pc0` undoes the advance. -/
theorem exec_ldVxK_of_noKey (hw : s.config.keyWait = .wait) (hk : s.key = none) : exec (.ldVxK x) s = .next s := by
  simp only [exec, execLdVxK, hw, hk]
  rfl

theorem exec_ldVxK_of_fault (hf : s.config.keyWait = .fault) : exec (.ldVxK x) s = s.raise .invalidOpcode := by
  simp only [exec, execLdVxK, hf]

theorem decode_ldVxK_of_fault : decode .fault (encodeI 0xF x 0x0A) = .error .keyWaitDisabled := by
  simp [decodeClassF]

end LoadKey

/-- Settles O48: `KEYWAIT` and the latch select one of the three meanings. -/
theorem loadKeyOrWait : Obligations.LoadKeyOrWait := by
  intro s x
  refine ⟨encodedAs_encode (.ldVxK x), fun hw k hk => ?_, fun hw hk => ?_, fun hf => ?_⟩
  · refine ⟨_, exec_ldVxK_of_key x hw hk, ?_, rfl, unchangedBut_advance_setReg s x _⟩
    rw [State.reg_setReg_same, toNat_zeroExtendedKey]
  · exact ⟨s, exec_ldVxK_of_noKey x hw hk, UnchangedBut.refl _ s⟩
  · exact ⟨decode_ldVxK_of_fault x, exec_ldVxK_of_fault x hf⟩

end Sys2Proof.Machine

namespace Sys2Proof.Machine

/-! ### Which instruction takes which fault (R200 to R204, R209) -/

/-- The fault an instruction takes in a running state, by the check of its own meaning: none where the check passes, and for
every instruction that has no check. -/
def State.faultOf (s : State) : Instr → Option FaultKind
  | .ret => if s.sp.val = 0 then some .stackUnderflow else none
  | .call _ => if s.sp.val < 16 then none else some .stackOverflow
  | .drw _ _ n => if s.spriteInMemory n.val then none else some .memoryOutOfBounds
  | .ldB _ => if inMemory (s.indexed 2) then none else some .memoryOutOfBounds
  | .storeRegs x | .loadRegs x => if inMemory (s.indexed x.val) then none else some .memoryOutOfBounds
  | .ldVxK _ => if s.config.keyWait = .fault then some .invalidOpcode else none
  | _ => none

/-- The latch after a meaning that checks its addresses first and otherwise keeps it. -/
theorem fault_of_guard {s t u : State} {c : Bool} {k : FaultKind}
    (h : (if c then .next u else s.raise k : Result) = .next t) (hu : u.fault = none) :
    t.fault = if c then none else some k := by
  cases c <;> obtain rfl := Host.Outcome.next.inj h
  · rfl
  · exact hu

/-- An instruction executed in a running state latches the fault of its own check, and no other. -/
theorem exec_fault {i : Instr} {s t : State} (hf : s.fault = none) (h : exec i s = .next t) : t.fault = s.faultOf i := by
  cases i
  case ret =>
    by_cases hsp : s.sp.val = 0
    · obtain rfl := Host.Outcome.next.inj ((execRet_of_empty hsp).symm.trans h)
      exact (if_pos hsp).symm
    · obtain rfl := Host.Outcome.next.inj ((execRet_of_nonempty hsp).symm.trans h)
      exact hf.trans (if_neg hsp).symm
  case call nnn =>
    by_cases hsp : s.sp.val < 16
    · obtain rfl := Host.Outcome.next.inj ((execCall_of_room nnn hsp).symm.trans h)
      exact hf.trans (if_pos hsp).symm
    · obtain rfl := Host.Outcome.next.inj ((execCall_of_full nnn hsp).symm.trans h)
      exact (if_neg hsp).symm
  case ldVxK x =>
    cases hw : s.config.keyWait with
    | fault =>
      obtain rfl := Host.Outcome.next.inj ((exec_ldVxK_of_fault x hw).symm.trans h)
      exact (if_pos hw).symm
    | wait =>
      have hnone : s.faultOf (.ldVxK x) = none := if_neg (by simp [hw])
      cases hk : s.key with
      | none =>
        obtain rfl := Host.Outcome.next.inj ((exec_ldVxK_of_noKey x hw hk).symm.trans h)
        exact hf.trans hnone.symm
      | some k =>
        obtain rfl := Host.Outcome.next.inj ((exec_ldVxK_of_key x hw hk).symm.trans h)
        exact hf.trans hnone.symm
  case drw => exact fault_of_guard h hf
  case ldB | storeRegs => exact fault_of_guard h ((State.writeBytes_fault _ _ _).trans hf)
  case loadRegs => exact fault_of_guard h ((loadRegsFrom_fault _ _).trans hf)
  all_goals obtain rfl := Host.Outcome.next.inj h
  case seImm | sneImm | seReg | sneReg | skp | sknp =>
    rw [State.skipIf_eq]
    exact hf
  all_goals exact hf

section FaultOf

variable {s : State} {i : Instr}

theorem State.faultOf_stackOverflow_iff : s.faultOf i = some .stackOverflow ↔ s.sp.val = 16 ∧ ∃ nnn, i = .call nnn := by
  have hsp : ¬ s.sp.val < 16 ↔ s.sp.val = 16 := by omega
  cases i <;> simp [State.faultOf, hsp]

theorem State.faultOf_stackUnderflow_iff : s.faultOf i = some .stackUnderflow ↔ s.sp.val = 0 ∧ i = .ret := by
  cases i <;> simp [State.faultOf]

theorem State.faultOf_memoryOutOfBounds_iff : s.faultOf i = some .memoryOutOfBounds ↔
    (∃ x y n, i = .drw x y n ∧ n.val ≥ 1 ∧ s.i.toNat + n.val - 1 > 4095) ∨
    (∃ x, i = .ldB x ∧ s.i.toNat + 2 > 4095) ∨
    (∃ x, i = .storeRegs x ∧ s.i.toNat + x.val > 4095) ∨
    (∃ x, i = .loadRegs x ∧ s.i.toNat + x.val > 4095) := by
  cases i
  case drw x y n =>
    have hlast : ¬ (n.val = 0 ∨ s.i.toNat + n.val - 1 ≤ 4095) ↔ n.val ≥ 1 ∧ s.i.toNat + n.val - 1 > 4095 := by omega
    simpa [State.faultOf, State.spriteInMemory_iff] using hlast
  case ldB x =>
    have hlast : ¬ s.indexed 2 ≤ 4095 ↔ s.i.toNat + 2 > 4095 := Nat.not_le
    simpa [State.faultOf, inMemory_iff] using hlast
  all_goals simp [State.faultOf, inMemory_iff, State.indexed_eq]

theorem State.faultOf_invalidOpcode_iff :
    s.faultOf i = some .invalidOpcode ↔ s.config.keyWait = .fault ∧ ∃ x, i = .ldVxK x := by
  cases i <;> simp [State.faultOf]

theorem State.faultOf_ne_romTooLarge : s.faultOf i ≠ some .romTooLarge := by
  cases i <;> simp [State.faultOf]

end FaultOf

/-- Settles O11: the latch an instruction leaves is the fault of its own check, read off kind by kind. -/
theorem instructionFaultsHaveTheirConditions : Obligations.InstructionFaultsHaveTheirConditions := by
  intro i s t hf h
  rw [exec_fault hf h]
  exact ⟨State.faultOf_stackOverflow_iff, State.faultOf_stackUnderflow_iff, State.faultOf_memoryOutOfBounds_iff,
    State.faultOf_invalidOpcode_iff, State.faultOf_ne_romTooLarge⟩

/-! ### Fault entry (R206) -/

section FaultEntry

variable {s t : State} {k : FaultKind}

/-- An instruction that latches a fault in a running state leaves the state it began in with the latch set. -/
theorem exec_eq_of_fault {i : Instr} (hf : s.fault = none) (h : exec i s = .next t) (ht : t.fault = some k) :
    t = { s with fault := some k } := by
  rcases exec_cases h with ⟨k', rfl⟩ | ⟨hkeep, -⟩
  · obtain rfl := Option.some.inj ht
    rfl
  · simp [hkeep, hf] at ht

/-- An instruction cycle latches the fault of its fetch or decode and changes nothing else, or executes an instruction. -/
theorem runInstruction_raises_or_executes (h : runInstruction s = .next t) :
    (∃ k, t = { s with fault := some k }) ∨ ∃ i, exec i s = .next t := by
  rcases runInstruction_cases s with ⟨-, hr⟩ | ⟨w, e, -, -, hr⟩ | ⟨w, i, -, -, hr⟩
  · exact .inl ⟨_, (Host.Outcome.next.inj (hr.symm.trans h)).symm⟩
  · exact .inl ⟨_, (Host.Outcome.next.inj (hr.symm.trans h)).symm⟩
  · exact .inr ⟨i, hr.symm.trans h⟩

/-- Whichever phase of an instruction cycle raises the fault, the cycle changes the latch alone. -/
theorem runInstruction_eq_of_fault (hf : s.fault = none) (h : runInstruction s = .next t) (ht : t.fault = some k) :
    t = { s with fault := some k } := by
  rcases runInstruction_raises_or_executes h with ⟨k', rfl⟩ | ⟨i, hi⟩
  · obtain rfl := Option.some.inj ht
    rfl
  · exact exec_eq_of_fault hf hi ht

theorem loadEvent_eq_of_fault {rom : List Byte} (hf : s.fault = none) (h : s.loadEvent rom = .next t)
    (ht : t.fault = some k) : t = { s with fault := some k } := by
  rcases loadEvent_cases h with ⟨f, rfl⟩ | ⟨-, d, rfl⟩
  · exact congrArg (fun f => { s with fault := f }) ht
  · have hkeep := (s.writeBytes_fault progBase rom).trans hf
    exact absurd (ht.symm.trans hkeep) (by simp)

/-- The state a faulting event leaves: only Load and Step can raise a fault. -/
theorem applyEvent_eq_of_fault {e : Event} (hf : s.fault = none) (h : applyEvent e s = .next t) (ht : t.fault = some k) :
    t = { s with fault := some k, driver := t.driver } := by
  cases e
  case load rom =>
    rw [loadEvent_eq_of_fault hf h ht]
  case step r =>
    rw [runInstruction_eq_of_fault (s := s.beginStep (some r)) hf ((stepEvent_running hf _).symm.trans h) ht]
    rfl
  case reset =>
    obtain rfl := Host.Outcome.next.inj h
    cases ht
  case tick | keyPress | keyRelease | ackRedraw =>
    obtain rfl := Host.Outcome.next.inj h
    exact absurd (ht.symm.trans hf) (by simp)

end FaultEntry

/-- Settles O10: the state left is the state begun in with the latch set, which fixes the frame and the result. -/
theorem faultingEventChangesOnlyTheLatch : Obligations.FaultingEventChangesOnlyTheLatch := by
  intro s t e k hf h ht
  have heq := applyEvent_eq_of_fault hf h ht
  refine ⟨heq, ?_, State.stepResponse_of_some ht⟩
  rw [heq]
  exact (unchangedBut_raise s k).trans (unchangedBut_withDriver _ t.driver)

/-! ### Fetching an illegal word (R201) -/

/-- The instruction cycle of a state whose two bytes at `PC` are illegal takes InvalidOpcode (R84, R201). -/
theorem runInstruction_of_illegal {s : State} {e : Illegal} (hpc : s.pc.toNat ≤ 4094)
    (hd : decode s.config.keyWait (s.readByte s.pc.toNat ++ s.readByte (s.pc.toNat + 1)) = .error e) :
    runInstruction s = s.raise .invalidOpcode := by
  simp only [runInstruction, State.fetch_eq_some hpc, wordOfBytes, hd]

/-- Settles O8: the Step of either schedule is an instruction cycle with only the driver's side new, and on an illegal word
that cycle takes the fault. -/
theorem illegalWordTakesInvalidOpcode : Obligations.IllegalWordTakesInvalidOpcode := by
  intro s e hf hn hpc hd
  obtain ⟨d, hstep⟩ := step_of_stepIsNext hf hn
  have hfault : runInstruction (s.withDriver d) = (s.withDriver d).raise .invalidOpcode :=
    runInstruction_of_illegal hpc hd
  refine ⟨_, hstep.trans hfault, rfl, rfl, ?_⟩
  exact ((unchangedBut_withDriver s d).trans (unchangedBut_raise _ _)).mono fun _ => Or.symm

/-! ### A latched fault is terminal (R207) -/

/-- Settles O9: Step and Load do nothing, and no event but Reset touches the latch. -/
theorem latchedFaultIsTerminal : Obligations.LatchedFaultIsTerminal := by
  intro s k hf
  refine ⟨fun r => stepEvent_faulted hf (some r), State.stepResponse_of_some hf, loadEvent_faulted hf, hf,
    fun e t he h => ?_⟩
  obtain ⟨hkeep, -⟩ := faultFreezesTheProgramState s t e k hf he h
  exact hkeep

/-! ### What stops a step (R207, R243) -/

theorem step_of_latched {s : State} {k : FaultKind} (hs : s.driver.schedule = []) (hf : s.fault = some k) :
    step s = .fault (.latched k) := by
  simp only [step, nextEvent, hs, hf]

theorem loadEvent_outOfSequence {s : State} (hf : s.fault = none) (hl : s.driver.loadable = false) (rom : List Byte) :
    s.loadEvent rom = .refused .loadOutOfSequence := by
  simp [State.loadEvent, hf, hl]

theorem runInstruction_answers_next (s : State) : ∃ t, runInstruction s = .next t := by
  rcases runInstruction_cases s with ⟨-, hr⟩ | ⟨w, e, -, -, hr⟩ | ⟨w, i, -, -, hr⟩
  · exact ⟨_, hr⟩
  · exact ⟨_, hr⟩
  · rw [hr]
    exact exec_answers_next i s

theorem stepEvent_answers_next (r : Option Byte) (s : State) : ∃ t, stepEvent r s = .next t := by
  cases hf : s.fault with
  | some k => exact ⟨s, stepEvent_faulted hf r⟩
  | none =>
    rw [stepEvent_running hf]
    exact runInstruction_answers_next _

/-- A Load answers a next state but where a running machine refuses it as out of sequence. -/
theorem loadEvent_answers (rom : List Byte) (s : State) :
    (∃ t, s.loadEvent rom = .next t) ∨ (s.fault = none ∧ s.driver.loadable = false) := by
  unfold State.loadEvent
  split
  · exact .inl ⟨s, rfl⟩
  · split
    · rename_i hfault hload
      exact .inr ⟨Option.not_isSome_iff_eq_none.mp hfault, by simpa using hload⟩
    · split
      · exact .inl ⟨_, rfl⟩
      · exact .inl ⟨_, rfl⟩

theorem applyEvent_answers (e : Event) (s : State) :
    (∃ t, applyEvent e s = .next t) ∨ ∃ rom, e = .load rom ∧ s.fault = none ∧ s.driver.loadable = false := by
  cases e
  case load rom => exact (loadEvent_answers rom s).imp_right fun h => ⟨rom, rfl, h⟩
  case step r => exact .inl (stepEvent_answers_next (some r) s)
  case reset | tick | keyPress | keyRelease | ackRedraw => exact .inl ⟨_, rfl⟩

/-- Settles O12: of the three things a step can do, an instruction cycle always answers, and an event does unless it is a Load
out of sequence. -/
theorem stepStopsOnlyAsNamed : Obligations.StepStopsOnlyAsNamed := by
  intro s
  refine ⟨fun k => step_of_latched, fun rom rest hs hf hl => ?_, ?_⟩
  · exact (step_of_scheduled hs).trans (loadEvent_outOfSequence (s := s.issued rest) hf hl rom)
  · rcases step_cases s with ⟨k, hs, hf, -⟩ | ⟨-, -, hstep⟩ | ⟨e, rest, hs, hstep⟩
    · exact .inr (.inl ⟨k, hs, hf⟩)
    · rw [hstep]
      exact .inl (runInstruction_answers_next _)
    · rw [hstep]
      rcases applyEvent_answers e (s.issued rest) with hnext | ⟨rom, rfl, hf, hl⟩
      · exact .inl hnext
      · exact .inr (.inr ⟨rom, rest, hs, hf, hl⟩)

/-- Settles O60: the step of either schedule, and the event taken off the head changes the driver's side alone. -/
theorem stepAppliesTheNextEvent : Obligations.StepAppliesTheNextEvent := fun s =>
  ⟨fun _ rest hs => ⟨step_of_scheduled hs, s.issued_driver rest, unchangedBut_withDriver s _⟩, step_of_unscheduled⟩

/-! ### Ticks (R213, R214) -/

theorem toNat_countDown (v : Byte) : (countDown v).toNat = v.toNat - 1 := by
  unfold countDown
  split
  · bv_omega
  · omega

/-- Settles O49: both timers count down at once, floored at 0, and they are all a Tick writes. -/
theorem tickCountsBothTimersDown : Obligations.TickCountsBothTimersDown := fun s =>
  ⟨s.tick, rfl, toNat_countDown s.dt, toNat_countDown s.st, unchangedBut_tick s⟩

/-- A number that every Tick lowers by 1, floored at 0, is `n` lower after `n` Ticks. -/
theorem tick_iterate_of_pred {f : State → Nat} (hf : ∀ s : State, f s.tick = f s - 1) (n : Nat) (s : State) :
    f (State.tick^[n] s) = f s - n := by
  have hpred : Function.Semiconj f State.tick Nat.pred := hf
  rw [hpred.iterate_right n s, Nat.pred_iterate]

theorem State.toNat_dt_tick_iterate (s : State) (n : Nat) : (State.tick^[n] s).dt.toNat = s.dt.toNat - n :=
  tick_iterate_of_pred (f := fun s => s.dt.toNat) (fun s => toNat_countDown s.dt) n s

theorem State.toNat_st_tick_iterate (s : State) (n : Nat) : (State.tick^[n] s).st.toNat = s.st.toNat - n :=
  tick_iterate_of_pred (f := fun s => s.st.toNat) (fun s => toNat_countDown s.st) n s

/-- Settles O50: `n` Ticks take `n` from a timer, which is then 0 exactly when the value written was at most `n`. -/
theorem timerLastsItsCount : Obligations.TimerLastsItsCount := by
  intro s x
  refine ⟨_, _, rfl, rfl, fun n => ⟨?_, ?_⟩⟩
  · rw [← BitVec.toNat_inj, State.toNat_dt_tick_iterate]
    exact Nat.sub_eq_zero_iff_le
  · rw [State.tone_iff, State.toNat_st_tick_iterate, gt_iff_lt, Nat.sub_pos_iff_lt]

/-! ### Key events and the redraw flag (R215, R216, R218) -/

/-- Settles O51: both events write the key latch alone, whatever it held. -/
theorem keyEvents : Obligations.KeyEvents := fun s =>
  ⟨fun k => ⟨_, rfl, rfl, unchangedBut_key s (some k)⟩, _, rfl, rfl, unchangedBut_key s none⟩

theorem runInstruction_redraw_of_set {s t : State} (h : runInstruction s = .next t) (hs : s.redraw = true) :
    t.redraw = true := by
  rcases runInstruction_raises_or_executes h with ⟨k, rfl⟩ | ⟨i, hi⟩
  · exact hs
  · exact exec_redraw_of_set hi hs

theorem stepEvent_redraw_of_set {r : Option Byte} {s t : State} (h : stepEvent r s = .next t) (hs : s.redraw = true) :
    t.redraw = true := by
  cases hf : s.fault with
  | some k =>
    obtain rfl := Host.Outcome.next.inj ((stepEvent_faulted hf r).symm.trans h)
    exact hs
  | none => exact runInstruction_redraw_of_set ((stepEvent_running hf r).symm.trans h) hs

theorem loadEvent_redraw {rom : List Byte} {s t : State} (h : s.loadEvent rom = .next t) : t.redraw = s.redraw := by
  rcases loadEvent_cases h with ⟨f, rfl⟩ | ⟨-, d, rfl⟩
  · rfl
  · exact s.writeBytes_redraw progBase rom

/-- Settles O52: AckRedraw clears the flag; of the other events only a Step can write it, and no instruction clears it. -/
theorem acknowledgeRedraw : Obligations.AcknowledgeRedraw := by
  refine ⟨fun s => ⟨_, rfl, rfl, unchangedBut_redraw s false⟩, fun s t e hack hreset hs h => ?_⟩
  cases e
  case ackRedraw => exact absurd rfl hack
  case reset => exact absurd rfl hreset
  case step r => exact stepEvent_redraw_of_set h hs
  case load rom => exact (loadEvent_redraw h).trans hs
  case tick | keyPress | keyRelease =>
    obtain rfl := Host.Outcome.next.inj h
    exact hs

end Sys2Proof.Machine

namespace Sys2Proof.Machine

/-! ### An instruction that changes nothing (R250) -/

/-- R250's list: a jump to itself, a `JP V0` to itself, and a key wait with no key latched. -/
def State.FixedBy (s : State) (i : Instr) : Prop :=
  (∃ nnn, i = .jp nnn ∧ nnn.toNat = s.pc.toNat) ∨
  (∃ nnn, i = .jpV0 nnn ∧ nnn.toNat + (s.reg 0).toNat = s.pc.toNat) ∨
  (∃ x, i = .ldVxK x ∧ s.key = none)

/-- An instruction of the list answers the very state it began in. -/
theorem exec_of_fixedBy {i : Instr} {s : State} (hwf : i.wellFormed s.config.keyWait = true) (h : s.FixedBy i) :
    exec i s = .next s := by
  rcases h with ⟨nnn, rfl, hpc⟩ | ⟨nnn, rfl, hpc⟩ | ⟨x, rfl, hkey⟩
  · have htarget : addrWord nnn = s.pc := BitVec.eq_of_toNat_eq ((toNat_addrWord nnn).trans hpc)
    rw [exec, execJp, htarget]
    rfl
  · have htarget : addrWord nnn + byteWord (s.reg 0) = s.pc :=
      BitVec.eq_of_toNat_eq ((toNat_addrWord_add_byteWord nnn _).trans hpc)
    rw [exec, execJpV0, htarget]
    rfl
  · exact exec_ldVxK_of_noKey x (eq_of_beq hwf) hkey

theorem add_two_ne_self (a : Word) : a + 2 ≠ a := by
  bv_omega

theorem State.advance_skipIf_pc_ne (s : State) (c : Bool) : (s.advance.skipIf c).pc ≠ s.pc := by
  rw [State.advance_skipIf_pc]
  split <;> bv_omega

/-- A meaning that checks its addresses first and completes has advanced. -/
theorem pc_ne_of_guard {s t u : State} {c : Bool} {k : FaultKind}
    (h : (if c then .next u else s.raise k : Result) = .next t) (hu : u.pc = s.pc + 2) (hf : t.fault = none) :
    t.pc ≠ s.pc := by
  rcases next_of_guard h with ⟨-, rfl⟩ | rfl
  · rw [hu]
    exact add_two_ne_self s.pc
  · cases hf

/-- LD Vx, K completes without moving `PC` only where no key is latched (R185). -/
theorem key_of_exec_ldVxK {x : RegIdx} {s t : State} (h : exec (.ldVxK x) s = .next t) (hf : t.fault = none)
    (hpc : t.pc = s.pc) : s.key = none := by
  cases hw : s.config.keyWait with
  | fault =>
    obtain rfl := Host.Outcome.next.inj ((exec_ldVxK_of_fault x hw).symm.trans h)
    cases hf
  | wait =>
    cases hk : s.key with
    | none => rfl
    | some k =>
      obtain rfl := Host.Outcome.next.inj ((exec_ldVxK_of_key x hw hk).symm.trans h)
      exact absurd hpc (add_two_ne_self s.pc)

/-- An instruction that completes with `PC` and the stack depth as they were is one of the list: CALL and RET move the depth,
and every instruction but these, the jumps and the key wait goes on by 2 or 4. -/
theorem fixedBy_of_exec {i : Instr} {s t : State} (h : exec i s = .next t) (hf : t.fault = none) (hpc : t.pc = s.pc)
    (hsp : t.sp = s.sp) : s.FixedBy i := by
  cases i
  case jp nnn =>
    obtain rfl := Host.Outcome.next.inj h
    exact .inl ⟨nnn, rfl, (toNat_addrWord nnn).symm.trans (congrArg BitVec.toNat hpc)⟩
  case jpV0 nnn =>
    obtain rfl := Host.Outcome.next.inj h
    exact .inr (.inl ⟨nnn, rfl, (toNat_addrWord_add_byteWord nnn _).symm.trans (congrArg BitVec.toNat hpc)⟩)
  case ldVxK x => exact .inr (.inr ⟨x, rfl, key_of_exec_ldVxK h hf hpc⟩)
  all_goals exfalso
  case ret =>
    rcases execRet_cases h with rfl | ⟨hne, rfl⟩
    · cases hf
    · have hdepth : s.sp.val - 1 = s.sp.val := congrArg Fin.val hsp
      omega
  case call nnn =>
    rcases execCall_cases h with rfl | ⟨hroom, rfl⟩
    · cases hf
    · have hdepth : s.sp.val + 1 = s.sp.val := congrArg Fin.val hsp
      omega
  case drw => exact pc_ne_of_guard h rfl hf hpc
  case ldB | storeRegs => exact pc_ne_of_guard h (State.writeBytes_pc _ _ _) hf hpc
  case loadRegs => exact pc_ne_of_guard h (loadRegsFrom_pc _ _) hf hpc
  all_goals obtain rfl := Host.Outcome.next.inj h
  case seImm | sneImm | seReg | sneReg | skp | sknp => exact s.advance_skipIf_pc_ne _ hpc
  all_goals exact add_two_ne_self s.pc hpc

/-- Settles O20: the Step is an instruction cycle with only the driver's side new; an illegal word latches a fault, and a
legal one is executed, which answers the state it began in exactly where R250 lists it. -/
theorem stepFixedPoints : Obligations.StepFixedPoints := by
  intro s t hf hpc hn h
  obtain ⟨d, hstep⟩ := step_of_stepIsNext hf hn
  have hrun : runInstruction (s.withDriver d) = .next t := hstep.symm.trans h
  constructor
  · intro hsame
    have hfault : t.fault = none := Eq.trans (hsame .fault nofun) hf
    cases hd : decode s.config.keyWait (s.readByte s.pc.toNat ++ s.readByte (s.pc.toNat + 1)) with
    | error e =>
      obtain rfl := Host.Outcome.next.inj ((runInstruction_of_illegal (s := s.withDriver d) hpc hd).symm.trans hrun)
      cases hfault
    | ok i =>
      have hexec := (runInstruction_of_decode (s := s.withDriver d) hpc hd).symm.trans hrun
      exact ⟨i, rfl, fixedBy_of_exec (s := s.withDriver d) hexec hfault (hsame .pc nofun) (hsame .depth nofun)⟩
  · rintro ⟨i, hd, hfixed⟩
    have hexec := (runInstruction_of_decode (s := s.withDriver d) hpc hd).symm.trans hrun
    obtain ⟨-, hwf⟩ := encode_of_decode hd
    obtain rfl := Host.Outcome.next.inj ((exec_of_fixedBy (s := s.withDriver d) hwf hfixed).symm.trans hexec)
    exact unchangedBut_withDriver s d

/-! ### Load (R243) -/

theorem loadEvent_of_le {s : State} {rom : List Byte} (hf : s.fault = none) (hl : s.driver.loadable = true)
    (hlen : rom.length ≤ romMax) :
    s.loadEvent rom = .next ((s.writeBytes progBase rom).withDriver { s.driver with loadable := false }) := by
  simp [State.loadEvent, hf, hl, Nat.not_lt.mpr hlen, State.withDriver]

theorem loadEvent_of_gt {s : State} {rom : List Byte} (hf : s.fault = none) (hl : s.driver.loadable = true)
    (hlen : rom.length > romMax) : s.loadEvent rom = s.raise .romTooLarge := by
  simp [State.loadEvent, hf, hl, hlen]

/-- Settles O54: the four ends of Load, one per outcome of its three tests; the program is a byte string written from 0x200
up. -/
theorem loadEvent : Obligations.LoadEvent := by
  intro s rom
  refine ⟨fun hf hl hlen => ?_, loadEvent_of_gt, fun k hf => loadEvent_faulted hf rom,
    fun hf hl => loadEvent_outOfSequence hf hl rom⟩
  refine ⟨_, loadEvent_of_le hf hl hlen, fun k => s.readByte_writeBytes_add progBase,
    (s.writeBytes_fault progBase rom).trans hf, ?_⟩
  exact ((unchangedBut_writeBytes_offsets s progBase rom).trans (unchangedBut_withDriver _ _)).mono fun _ => Or.symm

/-! ### A finished run (R250) -/

/-- A finished run stands at a word that decodes to a jump to its own address. -/
theorem State.finished_iff (s : State) :
    s.finished = true ↔ s.fetch = some (encode (.jp (s.pc.setWidth 12))) ∧ s.pc.toNat ≤ 0xFFF := by
  simp [State.finished, encode]

/-- The instruction cycle of a finished run changes nothing. -/
theorem runInstruction_of_finished {s : State} (h : s.finished = true) : runInstruction s = .next s := by
  obtain ⟨hfetch, hpc⟩ := s.finished_iff.mp h
  have hdecode := encodedAs_encode (.jp (s.pc.setWidth 12)) s.config.keyWait rfl
  have hself : (s.pc.setWidth 12).toNat = s.pc.toNat := by
    rw [BitVec.toNat_setWidth]
    omega
  simp only [runInstruction, hfetch, hdecode]
  exact exec_of_fixedBy rfl (.inl ⟨_, rfl, hself⟩)

theorem stepEvent_of_finished {r : Option Byte} {s t : State} (hs : s.finished = true) (h : stepEvent r s = .next t) :
    t = s ∨ t = s.beginStep r := by
  cases hf : s.fault with
  | some k => exact .inl (Host.Outcome.next.inj ((stepEvent_faulted hf r).symm.trans h)).symm
  | none =>
    have hrun : runInstruction (s.beginStep r) = .next (s.beginStep r) := runInstruction_of_finished hs
    exact .inr (Host.Outcome.next.inj (hrun.symm.trans ((stepEvent_running hf r).symm.trans h))).symm

/-- A Load past its sequence can only find a fault latched, and then it does nothing. -/
theorem loadEvent_of_not_loadable {rom : List Byte} {s t : State} (hl : s.driver.loadable = false)
    (h : s.loadEvent rom = .next t) : t = s := by
  cases hf : s.fault with
  | some k => exact (Host.Outcome.next.inj ((loadEvent_faulted hf rom).symm.trans h)).symm
  | none => cases (loadEvent_outOfSequence hf hl rom).symm.trans h

/-- Settles O59: a Step jumps in place or finds a fault latched, a late Load does nothing, and no other event but Reset moves
`PC` or writes memory. -/
theorem finishedRunStaysFinished : Obligations.FinishedRunStaysFinished := by
  intro s t e hs hl he h
  cases e
  case reset => exact absurd rfl he
  case load rom =>
    obtain rfl := loadEvent_of_not_loadable hl h
    exact ⟨hs, rfl⟩
  case step r =>
    rcases stepEvent_of_finished hs h with rfl | rfl <;> exact ⟨hs, rfl⟩
  all_goals
    obtain rfl := Host.Outcome.next.inj h
    exact ⟨hs, rfl⟩

/-! ### When a Load is in sequence (R243) -/

/-- An instruction cycle, fault or not, moves of the driver's side only the count of draws. -/
theorem runInstruction_loadable {s t : State} (h : runInstruction s = .next t) :
    t.driver.loadable = s.driver.loadable := by
  rcases runInstruction_raises_or_executes h with ⟨k, rfl⟩ | ⟨i, hi⟩
  · rfl
  · rcases exec_cases hi with ⟨k, rfl⟩ | ⟨-, -, -, hdriver⟩
    · rfl
    · rw [hdriver]

theorem stepEvent_uses_sequence {r : Option Byte} {s t : State} (hf : s.fault = none) (h : stepEvent r s = .next t) :
    t.driver.loadable = false :=
  runInstruction_loadable ((stepEvent_running hf r).symm.trans h)

theorem loadEvent_uses_sequence {rom : List Byte} {s t : State} (hf : s.fault = none) (h : s.loadEvent rom = .next t)
    (ht : t.fault = none) : t.driver.loadable = false := by
  cases hl : s.driver.loadable with
  | false => rw [loadEvent_of_not_loadable hl h, hl]
  | true =>
    by_cases hlen : rom.length ≤ romMax
    · obtain rfl := Host.Outcome.next.inj ((loadEvent_of_le hf hl hlen).symm.trans h)
      rfl
    · obtain rfl := Host.Outcome.next.inj ((loadEvent_of_gt hf hl (Nat.lt_of_not_le hlen)).symm.trans h)
      cases ht

/-- Settles O55: Reset sets the bit; a Step clears it before its instruction, which keeps it, and a Load clears it when it
writes; the other events keep the driver's side. -/
theorem loadOnlyDirectlyAfterReset : Obligations.LoadOnlyDirectlyAfterReset := by
  refine ⟨fun s => ⟨_, rfl, rfl⟩, fun s t e hf h ht => ⟨?_, ?_⟩⟩
  · rintro (⟨rom, rfl⟩ | ⟨r, rfl⟩)
    · exact loadEvent_uses_sequence hf h ht
    · exact stepEvent_uses_sequence hf h
  · rintro (rfl | rfl | rfl | ⟨k, rfl⟩) <;>
    · obtain rfl := Host.Outcome.next.inj h
      rfl

/-! ### Reset (R240) -/

theorem Memory.unlisted_of_lt (g : Glyphs) {a : Nat} (h : a < 80) : Memory.unlisted g a = g[a] := dif_pos h

theorem Memory.unlisted_of_le (g : Glyphs) {a : Nat} (h : 80 ≤ a) : Memory.unlisted g a = 0 := dif_neg (Nat.not_lt.mpr h)

/-- After Reset no byte is listed, so memory reads as its reset contents under the configuration kept. -/
theorem State.resetEvent_readByte (s : State) (a : Nat) :
    s.resetEvent.readByte a = Memory.unlisted s.config.glyphs a := rfl

theorem State.resetEvent_reg (s : State) (r : RegIdx) : s.resetEvent.reg r = 0 := Vector.getElem_replicate r.isLt

/-- Settles O56: the registers and the stack are a zero each, memory lists nothing, and the buffer is the cleared one. -/
theorem resetEvent : Obligations.ResetEvent := by
  intro s
  refine ⟨s.resetEvent, rfl, s.resetEvent_reg, rfl, rfl, fun j => Vector.getElem_replicate j.isLt, rfl, rfl, rfl, rfl,
    fun a ha => ?_, fun a ha => ?_, Frame.cell_clear, rfl, rfl⟩
  · rw [State.resetEvent_readByte, Memory.unlisted_of_lt _ ha]
  · rw [State.resetEvent_readByte, Memory.unlisted_of_le _ ha]

end Sys2Proof.Machine
